-- ==== Sys2Proof/Word.lean ====
section
/-! DEFINITION. The widths of the machine: instruction words, bytes, vector registers and lanes
(spec/00_scope.md rule R8). -/

namespace Sys2Proof

/-- One byte of the program text (R40). -/
abbrev Byte := BitVec 8

/-- An instruction word: `ILEN` is 4 bytes, one 32-bit word (R8, R55). -/
abbrev Word := BitVec 32

/-- The content of a vector register: `VLEN` = 128 bits (R8, R21). -/
abbrev Vec := BitVec 128

/-- The content of one lane: `LANEW` = 32 bits (R8, R80). -/
abbrev Lane := BitVec 32

end Sys2Proof
end

