-- ==== Sys2Proof/Syntax.lean ====
section
/-! DEFINITION. The instructions: one constructor for each row of spec/opcode_table.json
(spec/30_encoding.md R63). -/

namespace Sys2Proof

/-- A vector register number. There is one file of `NVR` = 128 registers, and number `n` means the same
register in both instructions (spec/10_state.md R21, D21). -/
abbrev VReg := Fin 128

/-- The two instructions in scope (spec/00_scope.md R5). Operands stand in the order the assembler
writes them. -/
inductive Instr where
  /-- `vmaddfp VD, VA, VC, VB` (R69, R110). -/
  | vmaddfp (vd va vc vb : VReg)
  /-- `vmaddfp128 VD, VA, VB, VD` (R70, R114); the fourth printed operand is the first again. -/
  | vmaddfp128 (vd va vb : VReg)
deriving DecidableEq, Repr

end Sys2Proof
end

