-- ==== Sys2Proof/WellFormed.lean ====
section
/-! DEFINITION. Which instructions an encoding exists for. -/

namespace Sys2Proof

/-- `vmaddfp` names registers by 5-bit fields, so only numbers 0 to 31 (R33, R56); `vmaddfp128` names
them by 7-bit numbers, and "every value is legal" (R61). -/
def Instr.wf : Instr → Bool
  | .vmaddfp vd va vc vb => vd.val < 32 && va.val < 32 && vc.val < 32 && vb.val < 32
  | .vmaddfp128 _ _ _ => true

end Sys2Proof
end

