-- ==== Sys2Proof/Decode.lean ====
section
/-! DEFINITION. From words to instructions and back (spec/30_encoding.md R55 to R68). Bit numbers are
the source's: bit 0 is the most significant of the 32 (spec/00_scope.md R9). -/

namespace Sys2Proof

/-- Why a decode gives no instruction. -/
inductive DecodeError where
  /-- Fewer than four bytes were given: every instruction is 4 bytes (R55). -/
  | truncated
  /-- The word matches neither row of the opcode map (R68). -/
  | notInScope (w : Word)
deriving DecidableEq, Repr

/-- One row of the opcode map (R63). -/
structure OpcodeRow where
  mnemonic : String
  mask : Word
  pat : Word
deriving DecidableEq, Repr

/-- The row of `vmaddfp` (R57, R63). -/
def rowVmaddfp : OpcodeRow := ⟨"vmaddfp", 0xFC00003F#32, 0x1000002E#32⟩

/-- The row of `vmaddfp128` (R59, R63): every bit that is no operand bit is compared (D5). -/
def rowVmaddfp128 : OpcodeRow := ⟨"vmaddfp128", 0xFC0003D0#32, 0x140000D0#32⟩

/-- The opcode map (R63). -/
def opcodeMap : List OpcodeRow := [rowVmaddfp, rowVmaddfp128]

/-- The word is one of the row's. -/
def OpcodeRow.selects (r : OpcodeRow) (I : Word) : Bool := I &&& r.mask == r.pat

/-- The row an instruction belongs to. -/
def Instr.row : Instr → OpcodeRow
  | .vmaddfp _ _ _ _ => rowVmaddfp
  | .vmaddfp128 _ _ _ => rowVmaddfp128

/-- `I{a..b}`, bits `a` to `b` in the source's numbering: `I[31-a : 31-b]` (R9, R10). -/
def srcBits (I : Word) (a b : Nat) : BitVec (b + 1 - a) := I.extractLsb' (31 - b) (b + 1 - a)

/-- A register number read from bits: unsigned, neither scaled nor extended (R62). -/
def vregOfBits {n : Nat} (x : BitVec n) : VReg := Fin.ofNat 128 x.toNat

/-- The operands of form `VA` (R56, R62): `VD = I{6..10}`, `VA = I{11..15}`, `VC = I{21..25}`,
`VB = I{16..20}`. -/
def decodeVA (I : Word) : Instr :=
  .vmaddfp (vregOfBits (srcBits I 6 10)) (vregOfBits (srcBits I 11 15))
    (vregOfBits (srcBits I 21 25)) (vregOfBits (srcBits I 16 20))

/-- `VD128 = I{28..29} ++ I{6..10}` (R61). -/
def vd128 (I : Word) : VReg := vregOfBits (srcBits I 28 29 ++ srcBits I 6 10)

/-- `VA128 = I{21} ++ I{26} ++ I{11..15}` (R61). -/
def va128 (I : Word) : VReg := vregOfBits (srcBits I 21 21 ++ srcBits I 26 26 ++ srcBits I 11 15)

/-- `VB128 = I{30..31} ++ I{16..20}` (R61). -/
def vb128 (I : Word) : VReg := vregOfBits (srcBits I 30 31 ++ srcBits I 16 20)

/-- The operands of form `VX128` (R58, R61). -/
def decodeVX128 (I : Word) : Instr := .vmaddfp128 (vd128 I) (va128 I) (vb128 I)

/-- The decode procedure (R64): total, and a function of the word alone. -/
def decodeWord (I : Word) : Except DecodeError Instr :=
  if rowVmaddfp.selects I then .ok (decodeVA I)
  else if rowVmaddfp128.selects I then .ok (decodeVX128 I)
  else .error (.notInScope I)

/-- `B0 ++ B1 ++ B2 ++ B3`: the byte at the lowest address is the most significant (R41). -/
def wordOfBytes (b0 b1 b2 b3 : Byte) : Word := b0 ++ b1 ++ b2 ++ b3

/-- The four bytes of a word in the order of their addresses (R41). -/
def bytesOfWord (I : Word) : List Byte :=
  [srcBits I 0 7, srcBits I 8 15, srcBits I 16 23, srcBits I 24 31]

/-- Decode the instruction at the front of a string of bytes; the rest comes back with it. -/
def decode : List Byte → Except DecodeError (Instr × List Byte)
  | b0 :: b1 :: b2 :: b3 :: rest =>
    match decodeWord (wordOfBytes b0 b1 b2 b3) with
    | .ok i => .ok (i, rest)
    | .error e => .error e
  | _ => .error .truncated

/-- A register number as its seven bits. -/
def vregBits (n : VReg) : BitVec 7 := BitVec.ofNat 7 n.val

/-- The "low 5 bits" of a register number (R56, R58). -/
def low5 (n : VReg) : BitVec 5 := (vregBits n).extractLsb' 0 5

/-- The "middle bit" of a register number (R58). -/
def mid1 (n : VReg) : BitVec 1 := (vregBits n).extractLsb' 5 1

/-- The "high bit" of a register number (R58). -/
def high1 (n : VReg) : BitVec 1 := (vregBits n).extractLsb' 6 1

/-- The "high 2 bits" of a register number (R58). -/
def high2 (n : VReg) : BitVec 2 := (vregBits n).extractLsb' 5 2

/-- The word of `vmaddfp`: `000100 ddddd aaaaa bbbbb ccccc 101110` (R57). -/
def encodeVA (vd va vc vb : VReg) : Word :=
  0b000100#6 ++ low5 vd ++ low5 va ++ low5 vb ++ low5 vc ++ 0b101110#6

/-- The word of `vmaddfp128`: `000101 ddddd aaaaa bbbbb A 0 011 h 1 DD BB` (R60). -/
def encodeVX128 (vd va vb : VReg) : Word :=
  0b000101#6 ++ low5 vd ++ low5 va ++ low5 vb ++ high1 va ++ 0b0#1 ++ 0b011#3 ++ mid1 va ++ 0b1#1
    ++ high2 vd ++ high2 vb

/-- The word of an instruction (R57, R60). -/
def encode : Instr → Word
  | .vmaddfp vd va vc vb => encodeVA vd va vc vb
  | .vmaddfp128 vd va vb => encodeVX128 vd va vb

/-- What the decoder reads from an instruction whose bits are `w`, as spec/opcode_table.json numbers
them: the word laid out as its bytes, those bytes decoded. -/
def decodeTableWord (nbits w : Nat) : Option Instr :=
  match decode (bytesOfWord (BitVec.ofNat 32 (w % 2 ^ nbits))) with
  | .ok (i, _) => some i
  | .error _ => none

end Sys2Proof
end

