-- ==== Sys2Proof/Config.lean ====
section
/-! DEFINITION. What an implementation fixes and the source leaves open (spec/00_scope.md R8,
spec/92_eei_decisions.md D1, D10, D15, D23): the named parameters, and the free values, which are
constants without a body, so that no proof can lean on a value of theirs. -/

namespace Sys2Proof

/-- The OPEN numeric parameters of R8. They are data that a machine carries from its launch on, so a
statement about every state holds for every value of them (D1: "Claims should hold for every
`PCW`"); no step changes them. -/
structure Config where
  /-- `PCW`, the width of the program counter in bits (D1). -/
  pcw : Nat
  /-- `VSCR_W`, the width of `VSCR` in bits (D23). -/
  vscrW : Nat
  /-- `NJ_pos`, the bit of `VSCR` that is `NJ`, counted from the least significant (D23). -/
  njPos : Nat
  /-- `SAT_pos`, the bit of `VSCR` that is `SAT`, counted from the least significant (D23). -/
  satPos : Nat
deriving DecidableEq, Repr

/-- The parameters make sense: `PCW` is at least 3 (D1), and `NJ` and `SAT` are two bits of `VSCR`
(R26). -/
abbrev Config.Wf (c : Config) : Prop :=
  3 ≤ c.pcw ∧ c.njPos < c.vscrW ∧ c.satPos < c.vscrW ∧ c.njPos ≠ c.satPos

/-- The parameters that `State.reset` carries. DESIGN CHOICE (log 1) for `PCW`; PRESUMED (log 2, the
AltiVec layout that spec/93_implementation_defined.md G5 records) for `VSCR`. -/
def Config.launch : Config where
  pcw := 64
  vscrW := 32
  njPos := 16
  satPos := 0

/-- `nanResult` (R96, D10): the bits a NaN lane is drawn from, one draw for each lane of each
execution. It has no body: nothing is known of a draw (log 5). -/
opaque Config.nanDraw : Nat → Lane

/-- What the launch puts in vector register `n` (R30, R31, D15): not in the source, and "never
assumed zero" (U6). It has no body (log 3). -/
opaque Config.launchVr : Nat → Vec

/-- What the launch puts in the bits of `VSCR` other than `NJ` (R30): not in the source. It has no
body (log 3). -/
opaque Config.launchVscr : Nat

/-- `ProgramRegion = (base, len)`: where the program text lies (R40, D25). -/
structure Region where
  /-- The address of the first byte. -/
  base : Nat
  /-- The length in bytes. -/
  len : Nat
deriving DecidableEq, Repr

/-- R40: `base` and `len` are multiples of 4 and `base + len <= 2^PCW`. -/
abbrev Region.Wf (r : Region) (pcw : Nat) : Prop :=
  r.base % 4 = 0 ∧ r.len % 4 = 0 ∧ r.base + r.len ≤ 2 ^ pcw

end Sys2Proof
end

