-- ==== Sys2Proof/Machine/State.lean ====
section
/-! DEFINITION. The state of the machine, the reasons a step can stop, and the state after reset
(spec/10_state.md, spec/20_memory.md R40, R49). -/

namespace Sys2Proof.Machine

/-- The reasons a step can stop with a fault. No rule of the spec produces one (R16). -/
inductive Fault where
  /-- Raised by the fetch alone: the address lies in `ProgramRegion` and the launch put no byte there
  (R141 (1) presupposes one). Safe: the machine stops where nothing is known of the byte (log 6). -/
  | unloadedByte (addr : Nat)
deriving DecidableEq, Repr

/-- The situations that are given no meaning (R11 `refuse`, R16). Each is safe: the machine stops where
hardware may go on. -/
inductive Refusal where
  /-- Raised by an arm of `exec` for an instruction that has no meaning yet. Safe. -/
  | notModelled (mnemonic : String)
  /-- Raised by the step, `refuse(not_in_scope, I)`: the word is neither instruction (R68). Safe. -/
  | notInScope (w : Word)
  /-- Raised by the fetch, `refuse(misaligned_pc)`: `pc` is no multiple of 4 (R42). Safe. -/
  | misalignedPc (pc : Nat)
  /-- Raised by the fetch, `refuse(pc_outside_program)` (R43). Safe. -/
  | pcOutsideProgram (pc : Nat)
  /-- Raised by the fetch: the run has ended; `pc` is just past the program (R145, D16). Safe. -/
  | runEnded
  /-- Raised by the step: the launch premise `vmx_enabled` does not hold, and then "the spec refuses to
  describe the run" (R122, U14). Safe. -/
  | vmxDisabled
deriving DecidableEq, Repr

/-- `XER`: the three bits the spec names, and the rest as one value without a layout (R28, N10). -/
structure Xer where
  ca : Bool
  ov : Bool
  so : Bool
  other : Nat
deriving DecidableEq, Repr

/-- The program text: the bytes that are listed, by address. -/
abbrev Memory := List Host.Cell

/-- Everything the spec gives the machine. -/
structure State where
  /-- `v[0]` to `v[127]` (R21). -/
  vr : Vector Vec 128
  /-- `pc`, below `2^PCW`: the address of the instruction's first byte (R24). -/
  pc : Nat
  /-- `VSCR`, below `2^VSCR_W` (R26). -/
  vscr : Nat
  /-- CR, a value without a layout (R28, N10). -/
  cr : Nat
  /-- `XER` (R28). -/
  xer : Xer
  /-- `r[N]`: element `N`; a number past the end holds 0, so neither count nor width is fixed (R28, N10). -/
  gpr : List Nat
  /-- `f[N]`, in the same form (R28, N10). -/
  fpr : List Nat
  /-- The privilege mode, a value without a layout (R30, R129). -/
  privMode : Nat
  /-- The interrupt mask, a value without a layout (R30). -/
  intMask : Nat
  /-- The vector unit's enable: the launch premise `vmx_enabled` (R30, R122). -/
  vmxEnabled : Bool
  /-- The program text (R40, R49). -/
  mem : Memory
  /-- `ProgramRegion` (R40). -/
  region : Region
  /-- The OPEN parameters of this machine (R8). -/
  cfg : Config
  /-- The MODEL's own field, not the spec's: how many NaN draws have been made (R96, log 5). -/
  draws : Nat
deriving DecidableEq, Repr

/-- The value of `VSCR` at the launch: `NJ` is 1, "Xenon default" (R27, R30); every other bit is
whatever the launch left there (log 3). -/
def launchVscr (c : Config) : Nat := Config.launchVscr % 2 ^ c.vscrW ||| 2 ^ c.njPos

/-- The machine right after reset (R30, R140): `NJ` is 1, the vector unit is enabled by premise, the
vector registers hold what the launch gives them, and no program is loaded (logs 1 to 4). -/
def State.reset : State where
  vr := Vector.ofFn fun n => Config.launchVr n.val
  pc := 0
  vscr := launchVscr Config.launch
  cr := 0
  xer := ⟨false, false, false, 0⟩
  gpr := []
  fpr := []
  privMode := 0
  intMask := 0
  vmxEnabled := true
  mem := []
  region := ⟨0, 0⟩
  cfg := Config.launch
  draws := 0

end Sys2Proof.Machine
end

