-- ==== Sys2Proof/Machine/LaneNumerics.lean ====
section
/-! DEFINITION. Lane arithmetic (spec/40_lane_numerics.md R80 to R97): binary32 patterns, the denormal
flush, the fused multiply-add with one rounding, and `madd_lane`. Nothing here reads a mode or writes
a status (R97).

Exact values are held as integers: every finite pattern is a multiple of `2^-149`, so a product of two
and a sum of such a product with a pattern are multiples of `2^-298` (R83, R91). -/

namespace Sys2Proof.Machine

/-- The sign `s = w[31]` (R80). -/
def signBit (w : Lane) : Bool := w.getLsbD 31

/-- The biased exponent `e = w[30:23]` (R80). -/
def expField (w : Lane) : Nat := (w.extractLsb' 23 8).toNat

/-- The fraction `f = w[22:0]` (R80). -/
def fracField (w : Lane) : Nat := (w.extractLsb' 0 23).toNat

/-- The pattern `s ++ e ++ f`, `e` as 8 bits and `f` as 23. -/
def pack (s : Bool) (e f : Nat) : Lane := BitVec.ofBool s ++ BitVec.ofNat 8 e ++ BitVec.ofNat 23 f

/-- The zero of a sign. -/
def zeroLane (s : Bool) : Lane := pack s 0 0

/-- The infinity of a sign: `s ++ 0xFF ++ 0^23`. -/
def infLane (s : Bool) : Lane := pack s 255 0

/-- The five classes of patterns (R82). -/
inductive LaneClass where
  | zero
  | denormal
  | normal
  | inf
  | nan
deriving DecidableEq, Repr

/-- The class of a pattern (R82). -/
def classOf (w : Lane) : LaneClass :=
  if expField w = 0 then if fracField w = 0 then .zero else .denormal
  else if expField w = 255 then if fracField w = 0 then .inf else .nan
  else .normal

/-- The pattern is neither an infinity nor a NaN (R83). -/
def isFinite (w : Lane) : Bool := classOf w != .inf && classOf w != .nan

/-- `flush` (R84): a denormal becomes the zero of its own sign, everything else passes bit for bit. -/
def flush (w : Lane) : Lane := if classOf w = .denormal then zeroLane (signBit w) else w

/-- The magnitude of a finite pattern in units of `2^-149` (R83): the significand, shifted to its
exponent. -/
def magUnits (w : Lane) : Nat :=
  if expField w = 0 then fracField w else (2 ^ 23 + fracField w) * 2 ^ (expField w - 1)

/-- `val(w)` of a finite pattern in units of `2^-149` (R83). -/
def valUnits (w : Lane) : Int := if signBit w then -(magUnits w : Int) else (magUnits w : Int)

/-- `rne(m / 2^k)` (R92): to the nearest integer, a tie to the even one. -/
def rneShift (m k : Nat) : Nat :=
  let q := m / 2 ^ k
  let r := m % 2 ^ k
  if 2 * r < 2 ^ k then q
  else if 2 ^ k < 2 * r then q + 1
  else q + q % 2

/-- `round32(S)` for `S = N * 2^-298`, `N` not 0 (R92, R93): to nearest, ties to even, denormals
representable, an infinity on overflow. With `L = floor(log2 |N|)` the exponent `E` of the rule is
`L - 298`, so `E >= -126` reads `172 <= L` and `E + 127` reads `L - 171`. -/
def round32 (N : Int) : Lane :=
  let s := decide (N < 0)
  let m := N.natAbs
  let L := m.log2
  if 172 ≤ L then
    let n := rneShift m (L - 23)
    let e := if n = 2 ^ 24 then L - 170 else L - 171
    let n' := if n = 2 ^ 24 then 2 ^ 23 else n
    if 254 < e then infLane s else pack s e (n' - 2 ^ 23)
  else
    let n := rneShift m 149
    if n = 2 ^ 23 then pack s 1 0 else pack s 0 n

/-- `S = val(a) * val(c) + val(b)`, exact, in units of `2^-298` (R86, R91). -/
def exactSum (a c b : Lane) : Int := valUnits a * valUnits c + valUnits b * 2 ^ 149

/-- `fma32(a, c, b)` (R86 to R94), the first case that applies of R86's list. Where the rules say "a
NaN", the result is `nan` (R96). -/
def fma32 (nan a c b : Lane) : Lane :=
  let sp := signBit a ^^ signBit c
  if classOf a = .nan ∨ classOf c = .nan ∨ classOf b = .nan then nan
  else if classOf a = .inf ∧ classOf c = .zero ∨ classOf a = .zero ∧ classOf c = .inf then nan
  else if classOf a = .inf ∨ classOf c = .inf then
    if classOf b = .inf ∧ signBit b ≠ sp then nan else infLane sp
  else if classOf b = .inf then b
  else if exactSum a c b ≠ 0 then round32 (exactSum a c b)
  else if (classOf a = .zero ∨ classOf c = .zero) ∧ classOf b = .zero then
    if sp = signBit b then zeroLane sp else zeroLane false
  else zeroLane false

/-- `madd_lane(a, c, b) = flush(fma32(flush(a), flush(c), flush(b)))` (R85). -/
def maddLane (nan a c b : Lane) : Lane := flush (fma32 nan (flush a) (flush c) (flush b))

/-- A draw made a NaN: every NaN pattern stands for itself, and any other draw has its exponent filled
and the top fraction bit set. So a NaN result is any pattern of class NaN whatever (R96, log 5). -/
def nanOf (draw : Lane) : Lane := if classOf draw = .nan then draw else draw ||| 0x7FC00000#32

/-- `nanResult` number `k` (R96, D10). -/
def nanResult (k : Nat) : Lane := nanOf (Config.nanDraw k)

end Sys2Proof.Machine
end

