-- ==== Sys2Proof/Machine/Operands.lean ====
section
/-! DEFINITION. The operand forms: registers of four lanes, the memory image of a register, and which
register of `vmaddfp128` has which part in the sum (spec/00_scope.md R11, spec/10_state.md R22,
spec/20_memory.md R45, spec/90_conflicts.md C1). -/

namespace Sys2Proof.Machine

/-- `lane(x, i) = x[127-32*i : 96-32*i]`: lane 0 is the most significant word (R11, R22). -/
def lane (x : Vec) (i : Fin 4) : Lane := x.extractLsb' (96 - 32 * i.val) 32

/-- `lanes(w0, w1, w2, w3) = w0 ++ w1 ++ w2 ++ w3` (R11). -/
def lanes (w0 w1 w2 w3 : Lane) : Vec := w0 ++ w1 ++ w2 ++ w3

/-- The register whose lane `i` is `f i`. -/
def lanesOf (f : Fin 4 → Lane) : Vec := lanes (f 0) (f 1) (f 2) (f 3)

/-- The image of a register in memory: byte `k` is `x[127-8*k : 120-8*k]` (R45). No instruction makes
one; a launch may be written down with it. -/
def vecImage (x : Vec) : Vector Byte 16 := Vector.ofFn fun k => x.extractLsb' (120 - 8 * k.val) 8

/-- The register an image stands for: bytes 0 to 3 are lane 0 and so on, each lane most significant byte
first (R45). -/
def vecOfImage (b : Vector Byte 16) : Vec :=
  lanesOf fun i => wordOfBytes b[4 * i.val] b[4 * i.val + 1] b[4 * i.val + 2] b[4 * i.val + 3]

/-- The two readings of which register of `vmaddfp128` is the addend (C1). -/
inductive AddendReading where
  /-- The listing's: `VD <- VA * VD_old + VB`. -/
  | vb
  /-- The overruled Special Cases text's: `VD <- VA * VB + VD_old`. -/
  | vd
deriving DecidableEq, Repr

/-- The switch `vmaddfp128_addend` that D6 and U13 advise, at the value C1 resolves for (log 7). -/
def vmaddfp128Addend : AddendReading := .vb

/-- The second multiplicand and the addend of `vmaddfp128` under a reading, in this order. -/
def vmaddfp128Sources (reading : AddendReading) (vd vb : VReg) : VReg × VReg :=
  match reading with
  | .vb => (vd, vb)
  | .vd => (vb, vd)

end Sys2Proof.Machine
end

