-- ==== Sys2Proof/Machine/Ops.lean ====
section
/-! DEFINITION. The named operations over memory, registers and the program counter, the fetch, and the
one operation both instructions share. There is no operation that takes an exception: the spec gives
the machine none ("a model of this spec has no trap-entry transition", spec/60_exceptions.md R126). -/

namespace Sys2Proof.Machine

/-- The canonical form: addresses strictly rising. An unlisted address reads as no value, so no entry
can equal what it reads as. -/
abbrev Memory.wf (m : Memory) : Prop := m.Pairwise fun x y => x.1 < y.1

/-- The byte at an address, none where none is listed (log 6). -/
def Memory.read : Memory → Nat → Option Byte
  | [], _ => none
  | (k, v) :: m, a => if k = a then some v else Memory.read m a

/-- Put a byte at an address, keeping the canonical form. -/
def Memory.write : Memory → Nat → Byte → Memory
  | [], a, b => [(a, b)]
  | (k, v) :: m, a, b =>
    if a < k then (a, b) :: (k, v) :: m
    else if a = k then (a, b) :: m
    else (k, v) :: Memory.write m a b

/-- The `n` bytes from an address on, in the order of their addresses, or the first address at which no
byte is listed. -/
def Memory.readBytes (m : Memory) : Nat → Nat → Except Nat (List Byte)
  | _, 0 => .ok []
  | a, n + 1 =>
    match m.read a with
    | none => .error a
    | some b =>
      match Memory.readBytes m (a + 1) n with
      | .ok bs => .ok (b :: bs)
      | .error a' => .error a'

/-- Put bytes at an address and the ones that follow it. -/
def Memory.writeBytes (m : Memory) : Nat → List Byte → Memory
  | _, [] => m
  | a, b :: bs => Memory.writeBytes (m.write a b) (a + 1) bs

/-- `MemWrite(addr, 4, I)` (R11), which only a launch makes: no instruction stores (R44). -/
def Memory.writeWord (m : Memory) (a : Nat) (I : Word) : Memory := m.writeBytes a (bytesOfWord I)

/-- Put words one after another (R141 (1)). -/
def Memory.writeWords (m : Memory) : Nat → List Word → Memory
  | _, [] => m
  | a, I :: ws => Memory.writeWords (m.writeWord a I) (a + 4) ws

/-- The four bytes at `addr` as a word, or the fault of the first that is not there: `MemRead(addr, 4)`
(R11, R41). -/
def Memory.readWord (m : Memory) (addr : Nat) : Host.Outcome Word Fault Refusal :=
  match m.readBytes addr 4 with
  | .ok [b0, b1, b2, b3] => .next (wordOfBytes b0 b1 b2 b3)
  | .ok _ => .fault (.unloadedByte addr)
  | .error a => .fault (.unloadedByte a)

/-- `v[n]` (R11). -/
def State.v (s : State) (n : VReg) : Vec := s.vr.get n

/-- `v[n] <- x` (R11): all 128 bits (R113, R116). -/
def State.setV (s : State) (n : VReg) (x : Vec) : State := { s with vr := s.vr.set n x }

/-- `pc <- (pc + 4) mod 2^PCW` (R24). -/
def State.advancePc (s : State) : State := { s with pc := (s.pc + 4) % 2 ^ s.cfg.pcw }

/-- One draw for each of the four lanes has been made (R96). -/
def State.useDraws (s : State) : State := { s with draws := s.draws + 4 }

/-- The four lane results from multiplicands `A` and `C` and addend `B`; lane `i` draws number
`draws + i` should it be a NaN (R81, R96, R110). -/
def maddVec (draws : Nat) (A C B : Vec) : Vec :=
  lanesOf fun i => maddLane (nanResult (draws + i.val)) (lane A i) (lane C i) (lane B i)

/-- `v[vd] <- v[a] * v[c] + v[b]` lane by lane, and `pc` past the instruction: the pseudocode R110 and
R114 share. All reads are of the state before (R111, R115), and the write is whole (R124). -/
def State.maddInto (s : State) (vd a c b : VReg) : State :=
  ((s.setV vd (maddVec s.draws (s.v a) (s.v c) (s.v b))).useDraws).advancePc

/-- `pc` to `pc+3` lie inside `ProgramRegion` (R42). -/
def State.inRegion (s : State) : Bool :=
  decide (s.region.base ≤ s.pc) && decide (s.pc + 4 ≤ s.region.base + s.region.len)

/-- The address just past the program (R145). -/
def State.endPc (s : State) : Nat := (s.region.base + s.region.len) % 2 ^ s.cfg.pcw

/-- The fetch (R42, R43, R145), its checks in the order of R125: the alignment of `pc`, its place, then
the read. -/
def State.fetch (s : State) : Host.Outcome Word Fault Refusal :=
  if s.pc % 4 ≠ 0 then .refused (.misalignedPc s.pc)
  else if s.inRegion then s.mem.readWord s.pc
  else if s.pc = s.endPc then .refused .runEnded
  else .refused (.pcOutsideProgram s.pc)

/-- Load a program: the words from `base` on, `ProgramRegion` around them, and `pc` at the first (R141
(1), (2)). This is the launch's, no step's (log 4). -/
def State.loadProgram (s : State) (base : Nat) (ws : List Word) : State :=
  { s with mem := s.mem.writeWords base ws, region := ⟨base, 4 * ws.length⟩, pc := base }

/-- Put a word where the next fetch reads: in the program where `pc` is inside it, and as a program of
one word where it is not. -/
def State.placeWord (s : State) (I : Word) : State :=
  if s.inRegion then { s with mem := s.mem.writeWord s.pc I } else s.loadProgram s.pc [I]

end Sys2Proof.Machine
end

