-- ==== Sys2Proof/Machine/Vmx.lean ====
section
/-! DEFINITION. The two instructions (spec/41_vmaddfp.md R110, R114). Neither raises an exception, for any
operands (spec/60_exceptions.md R120), so each answers a next state always. -/

namespace Sys2Proof.Machine

/-- `vmaddfp VD, VA, VC, VB` (R110): `VA * VC + VB`. -/
def execVmaddfp (vd va vc vb : VReg) (s : State) : Host.Outcome State Fault Refusal :=
  .next (s.maddInto vd va vc vb)

/-- `vmaddfp128 VD, VA, VB, VD` (R114): `VA * VD_old + VB`, by the reading of C1. -/
def execVmaddfp128 (vd va vb : VReg) (s : State) : Host.Outcome State Fault Refusal :=
  let src := vmaddfp128Sources vmaddfp128Addend vd vb
  .next (s.maddInto vd va src.1 src.2)

end Sys2Proof.Machine
end

