-- ==== Sys2Proof/Machine/Dispatch.lean ====
section
/-! DEFINITION. One arm for each constructor of Instr (spec/70_reset_and_hazards.md R146). -/

namespace Sys2Proof.Machine

def exec (i : Instr) (s : State) : Host.Outcome State Fault Refusal :=
  match i with
  | .vmaddfp vd va vc vb => Sys2Proof.Machine.execVmaddfp vd va vc vb s
  | .vmaddfp128 vd va vb => Sys2Proof.Machine.execVmaddfp128 vd va vb s

end Sys2Proof.Machine
end

