-- ==== Sys2Proof/Machine/Step.lean ====
section
/-! DEFINITION. One step of the machine (spec/70_reset_and_hazards.md R146, spec/60_exceptions.md R122,
R125). -/

namespace Sys2Proof.Machine

/-- One step: under the premise `vmx_enabled` (R122, U14), check `pc`, fetch, decode, execute (R125,
R146). A word that is neither instruction is refused (R68). -/
def step (s : State) : Host.Outcome State Fault Refusal :=
  if s.vmxEnabled then
    match s.fetch with
    | .next I =>
      match decodeWord I with
      | .ok i => exec i s
      | .error _ => .refused (.notInScope I)
    | .fault f => .fault f
    | .refused r => .refused r
  else .refused .vmxDisabled

/-- The state with an instruction stored where the next step fetches: the load of a program of that
one word where none is loaded (log 4). -/
def State.withFetchWord (s : State) (nbits w : Nat) : State :=
  s.placeWord (BitVec.ofNat 32 (w % 2 ^ nbits))

end Sys2Proof.Machine
end

