-- ==== Sys2Proof/Machine/Asm.lean ====
section
/-! DEFINITION. The assembler's form of the instructions (spec/30_encoding.md R69 to R71): text only, no
meaning (D22). -/

namespace Sys2Proof.Machine

/-- A line of assembly: the mnemonic, and the numbers of the vector registers as they are written. -/
structure AsmLine where
  mnemonic : String
  operands : List Nat
deriving DecidableEq, Repr

/-- `vmaddfp [VD], [VA], [VC], [VB]` (R69) and `vmaddfp128 [VD], [VA], [VB], [VD]` (R70). -/
def toAsm : Instr → AsmLine
  | .vmaddfp vd va vc vb => ⟨"vmaddfp", [vd.val, va.val, vc.val, vb.val]⟩
  | .vmaddfp128 vd va vb => ⟨"vmaddfp128", [vd.val, va.val, vb.val, vd.val]⟩

/-- A register number that is below a bound. -/
def asmReg (bound n : Nat) : Option VReg := if n < bound ∧ n < 128 then some (Fin.ofNat 128 n) else none

/-- Read a line of assembly. `vmaddfp` has registers `v0` to `v31` (R69); a fourth operand of
`vmaddfp128` that differs from the first has "nothing to encode it in" (R70), so it is no instruction. -/
def assemble (l : AsmLine) : Option Instr :=
  match l.operands with
  | [w, x, y, z] =>
    if l.mnemonic = "vmaddfp" then
      match asmReg 32 w, asmReg 32 x, asmReg 32 y, asmReg 32 z with
      | some vd, some va, some vc, some vb => some (.vmaddfp vd va vc vb)
      | _, _, _, _ => none
    else if l.mnemonic = "vmaddfp128" then
      match asmReg 128 w, asmReg 128 x, asmReg 128 y with
      | some vd, some va, some vb => if z = w then some (.vmaddfp128 vd va vb) else none
      | _, _, _ => none
    else none
  | _ => none

/-- The registers of a line as they are printed, spelt `v0` to `v127` (D22) and set apart by commas. -/
def renderRegs : List Nat → String
  | [] => ""
  | [n] => "v" ++ toString n
  | n :: ns => "v" ++ toString n ++ ", " ++ renderRegs ns

/-- The line as it is printed (R69, R70). -/
def AsmLine.render (l : AsmLine) : String := l.mnemonic ++ " " ++ renderRegs l.operands

end Sys2Proof.Machine
end

