-- ==== Sys2Proof/Machine/LaneReal.lean ====
section
/-! DEFINITION. The rules R83 and R92 of spec/40_lane_numerics.md as they are written, over the rational
numbers. The machine does not run these; the statements compare what it runs with them. -/

namespace Sys2Proof.Machine

/-- `(-1)^s`. -/
def signQ (s : Bool) : ℚ := if s then -1 else 1

/-- `val(w)` (R83). An infinity and a NaN have no value; the 0 they get here is read by no statement. -/
def valQ (w : Lane) : ℚ :=
  match classOf w with
  | .zero => 0
  | .normal =>
    signQ (signBit w) * (2 : ℚ) ^ ((expField w : ℤ) - 127) * (1 + (fracField w : ℚ) / 2 ^ 23)
  | .denormal => signQ (signBit w) * (2 : ℚ) ^ (-126 : ℤ) * ((fracField w : ℚ) / 2 ^ 23)
  | .inf => 0
  | .nan => 0

/-- `rne(t)` for `t >= 0` (R92). -/
def rneQ (t : ℚ) : ℕ :=
  let k := ⌊t⌋.toNat
  if t - (⌊t⌋ : ℚ) < 1 / 2 then k
  else if 1 / 2 < t - (⌊t⌋ : ℚ) then k + 1
  else if k % 2 = 0 then k else k + 1

/-- `round32(S)` for `S` not 0 (R92), with `E = floor(log2 |S|)`. -/
def round32Q (S : ℚ) : Lane :=
  let s := decide (S < 0)
  let E := Int.log 2 |S|
  if -126 ≤ E then
    let n := rneQ (|S| / (2 : ℚ) ^ (E - 23))
    let E' := if n = 2 ^ 24 then E + 1 else E
    let n' := if n = 2 ^ 24 then 2 ^ 23 else n
    if 127 < E' then infLane s else pack s (E' + 127).toNat (n' - 2 ^ 23)
  else
    let n := rneQ (|S| / (2 : ℚ) ^ (-149 : ℤ))
    if n = 2 ^ 23 then pack s 1 0 else pack s 0 n

/-- `S = val(a) * val(c) + val(b)`, exact (R86, R91). -/
def sumQ (a c b : Lane) : ℚ := valQ a * valQ c + valQ b

end Sys2Proof.Machine
end

