-- ==== Sys2Proof/Machine/Flags.lean ====
section
/-! DEFINITION. The status the spec names (spec/10_state.md R26 to R28). No instruction in scope computes
or writes a flag: "No condition-register or status-register effects" (R28), so this file only reads. -/

namespace Sys2Proof.Machine

/-- `VSCR[NJ]`, at the place the parameter `NJ_pos` says (R26, D23). -/
def State.vscrNJ (s : State) : Bool := s.vscr.testBit s.cfg.njPos

/-- `VSCR[SAT]`, at the place the parameter `SAT_pos` says (R26, D23). -/
def State.vscrSAT (s : State) : Bool := s.vscr.testBit s.cfg.satPos

/-- `r[N]` (R28). -/
def State.gprAt (s : State) (n : Nat) : Nat := s.gpr.getD n 0

/-- `f[N]` (R28). -/
def State.fprAt (s : State) (n : Nat) : Nat := s.fpr.getD n 0

end Sys2Proof.Machine
end

