-- ==== Sys2Proof/Safety.lean ====
section
/-! DEFINITION. What the statements assume of a state, and what a safe run is: the invariant, the launch
premises (spec/70_reset_and_hazards.md R141) and the program being in place. -/

namespace Sys2Proof.Machine

/-- The invariant: the parameters make sense (R8), `pc` is an aligned address (R24, R42), the region is
one R40 allows, the program text is canonical and inside the address space, `VSCR` has its width. -/
structure State.Inv (s : State) : Prop where
  cfg : s.cfg.Wf
  pc_lt : s.pc < 2 ^ s.cfg.pcw
  pc_aligned : s.pc % 4 = 0
  region : s.region.Wf s.cfg.pcw
  mem : s.mem.wf
  mem_lt : ∀ c ∈ s.mem, c.1 < 2 ^ s.cfg.pcw
  vscr_lt : s.vscr < 2 ^ s.cfg.vscrW

/-- The launch premise `NJ_is_1` (R27, D7). -/
abbrev State.njIs1 (s : State) : Prop := s.vscrNJ = true

/-- Every word of the program is in place and is one of the two instructions: what a run needs to reach
its end (R141 (1), R145). -/
def State.ProgramInScope (s : State) : Prop :=
  ∀ k, 4 * k < s.region.len →
    ∃ I i, s.mem.readWord (s.region.base + 4 * k) = .next I ∧ decodeWord I = .ok i

/-- What neither instruction changes (R28, R29, R121, R129): every status bit, every other register file,
the modes, every byte of memory, the region and the parameters. It leaves open the vector registers, `pc`
and the model's own count of draws. -/
structure State.Kept (s t : State) : Prop where
  vscr : t.vscr = s.vscr
  cr : t.cr = s.cr
  xer : t.xer = s.xer
  gpr : ∀ n, t.gprAt n = s.gprAt n
  fpr : ∀ n, t.fprAt n = s.fprAt n
  privMode : t.privMode = s.privMode
  intMask : t.intMask = s.intMask
  vmxEnabled : t.vmxEnabled = s.vmxEnabled
  mem : ∀ a, t.mem.read a = s.mem.read a
  region : t.region = s.region
  cfg : t.cfg = s.cfg

/-- `w` is a result `madd_lane(a, c, b)` may have (R85): where the rules say "a NaN", any pattern of class NaN
will do, since the source fixes the class and no more (R96). -/
def MaddResult (a c b w : Lane) : Prop := ∃ nan, classOf nan = .nan ∧ w = maddLane nan a c b

/-- A step is safe: it neither faults nor is refused. -/
def Safe (s : State) : Prop := ∃ t, step s = .next t

end Sys2Proof.Machine
end

