-- ==== Sys2Proof/Certificates/Slice0/Obligations.lean ====
section
/-! DEFINITION. The statements for the provers. Each docstring names what it formalises of spec/; where a
clause is the spec's own decision (a D of spec/92_eei_decisions.md) or this model's (a log entry), it
says so. -/

open Sys2Proof Sys2Proof.Machine

/-! ### Encoding and decoding -/

/-- Words of the tables 2.1 to 2.3 of spec/95_test_vectors.md, with what each decodes to. -/
def Obligations.KnownWordsDecode : Prop :=
  decodeWord 0x1000002E#32 = .ok (.vmaddfp 0 0 0 0) ∧
  decodeWord 0x106318EE#32 = .ok (.vmaddfp 3 3 3 3) ∧
  decodeWord 0x102220EE#32 = .ok (.vmaddfp 1 2 3 4) ∧
  decodeWord 0x140000D0#32 = .ok (.vmaddfp128 0 0 0) ∧
  decodeWord 0x14800CDD#32 = .ok (.vmaddfp128 100 64 33) ∧
  decodeWord 0x14BF04F3#32 = .ok (.vmaddfp128 5 127 96) ∧
  decodeWord 0x1000002F#32 = .error (.notInScope 0x1000002F#32) ∧
  decodeWord 0x100000D0#32 = .error (.notInScope 0x100000D0#32) ∧
  decodeWord 0x140002D0#32 = .error (.notInScope 0x140002D0#32) ∧
  decodeWord 0x140000C0#32 = .error (.notInScope 0x140000C0#32)

/-- R57: when `vmaddfp` is selected, by its two opcode fields and by mask and match; the word of
`vmaddfp VD, VA, VC, VB`, as a sum and as a bit string; every setting of the 20 other bits is an
instruction's. -/
def Obligations.VmaddfpSelectionAndWord : Prop :=
  (∀ I : Word,
    ((∃ vd va vc vb, decodeWord I = .ok (.vmaddfp vd va vc vb)) ↔
      (srcBits I 0 5).toNat = 4 ∧ (srcBits I 26 31).toNat = 46) ∧
    ((∃ vd va vc vb, decodeWord I = .ok (.vmaddfp vd va vc vb)) ↔
      I &&& 0xFC00003F#32 = 0x1000002E#32)) ∧
  ∀ vd va vc vb : BitVec 5,
    let I := encode (.vmaddfp (vregOfBits vd) (vregOfBits va) (vregOfBits vc) (vregOfBits vb))
    I.toNat = 0x1000002E + vd.toNat * 2 ^ 21 + va.toNat * 2 ^ 16 + vb.toNat * 2 ^ 11
      + vc.toNat * 2 ^ 6 ∧
    I = 0b000100#6 ++ vd ++ va ++ vb ++ vc ++ 0b101110#6

/-- R62: the four fields of form `VA` are the register numbers, unsigned and as they stand. -/
def Obligations.VmaddfpOperandFields : Prop :=
  ∀ (I : Word) (vd va vc vb : VReg), decodeWord I = .ok (.vmaddfp vd va vc vb) →
    vd.val = (srcBits I 6 10).toNat ∧ va.val = (srcBits I 11 15).toNat ∧
    vb.val = (srcBits I 16 20).toNat ∧ vc.val = (srcBits I 21 25).toNat

/-- spec/30_encoding.md section 3: `vmaddfp128` is selected exactly by mask and match, that is by its
primary opcode and the bits 22, 23 to 25 and 27. That all of these are compared is the spec's decision
D5. -/
def Obligations.Vmaddfp128Selection : Prop :=
  ∀ I : Word,
    ((∃ vd va vb, decodeWord I = .ok (.vmaddfp128 vd va vb)) ↔
      I &&& 0xFC0003D0#32 = 0x140000D0#32) ∧
    ((∃ vd va vb, decodeWord I = .ok (.vmaddfp128 vd va vb)) ↔
      (srcBits I 0 5).toNat = 5 ∧ (srcBits I 22 22).toNat = 0 ∧ (srcBits I 23 25).toNat = 3 ∧
      (srcBits I 27 27).toNat = 1)

/-- spec/30_encoding.md section 3: how the three 7-bit numbers are put together, with the positions
counted from the least significant bit, and that every three numbers have a word. The order of the
parts is the spec's reading D26. -/
def Obligations.Vmaddfp128OperandNumbers : Prop :=
  (∀ (I : Word) (vd va vb : VReg), decodeWord I = .ok (.vmaddfp128 vd va vb) →
    vd.val = (I.extractLsb' 2 2).toNat * 32 + (I.extractLsb' 21 5).toNat ∧
    va.val = (I.extractLsb' 10 1).toNat * 64 + (I.extractLsb' 5 1).toNat * 32
      + (I.extractLsb' 16 5).toNat ∧
    vb.val = (I.extractLsb' 0 2).toNat * 32 + (I.extractLsb' 11 5).toNat) ∧
  ∀ vd va vb : VReg, ∃ I : Word, decodeWord I = .ok (.vmaddfp128 vd va vb)

/-- spec/30_encoding.md section 3: the word of `vmaddfp128`, as a sum of its parts. -/
def Obligations.Vmaddfp128Word : Prop :=
  ∀ vd va vb : VReg,
    (encode (.vmaddfp128 vd va vb)).toNat =
      0x140000D0 + (vd.val % 32) * 2 ^ 21 + (va.val % 32) * 2 ^ 16 + (vb.val % 32) * 2 ^ 11
        + (va.val / 64) * 2 ^ 10 + (va.val / 32 % 2) * 2 ^ 5 + (vd.val / 32) * 2 ^ 2 + vb.val / 32

/-- spec/30_encoding.md section 4: encoding and then decoding gives every well-formed instruction back;
every word that decodes is the encoding of exactly the instruction it decodes to, which is well
formed. -/
def Obligations.DecodeEncodeAgree : Prop :=
  (∀ i : Instr, i.wf = true → decodeWord (encode i) = .ok i) ∧
  ∀ (I : Word) (i : Instr), decodeWord I = .ok i → i.wf = true ∧ encode i = I

/-- spec/30_encoding.md section 4, over the bytes as they lie in memory: an instruction at the front of a
string of bytes is decoded and the rest left over; the decoder reads exactly four bytes. Their order
is the spec's decision D2. -/
def Obligations.ByteDecodeAgrees : Prop :=
  (∀ (i : Instr) (rest : List Byte), i.wf = true →
    decode (bytesOfWord (encode i) ++ rest) = .ok (i, rest)) ∧
  (∀ (bs rest : List Byte) (i : Instr), decode bs = .ok (i, rest) →
    bs = bytesOfWord (encode i) ++ rest) ∧
  ∀ bs : List Byte, bs.length < 4 → decode bs = .error .truncated

/-- spec/30_encoding.md section 4: decoding is total, no word is selected by both rows, and a word that
neither row selects is rejected by name with the word (the spec's decision D4). -/
def Obligations.DecodeIsTotalAndDisjoint : Prop :=
  ∀ I : Word,
    ¬ (rowVmaddfp.selects I = true ∧ rowVmaddfp128.selects I = true) ∧
    (rowVmaddfp.selects I = true → ∃ vd va vc vb, decodeWord I = .ok (.vmaddfp vd va vc vb)) ∧
    (rowVmaddfp128.selects I = true → ∃ vd va vb, decodeWord I = .ok (.vmaddfp128 vd va vb)) ∧
    (rowVmaddfp.selects I = false → rowVmaddfp128.selects I = false →
      decodeWord I = .error (.notInScope I))

/-- spec/30_encoding.md section 5: a word that differs from a `vmaddfp128` word only in bit 22, only in
bit 27, or only by primary opcode 4 in place of 5, is out of scope (the spec's decision D5). -/
def Obligations.ReservedBitsAreCompared : Prop :=
  ∀ vd va vb : VReg,
    let I := encode (.vmaddfp128 vd va vb)
    decodeWord (I ^^^ 0x00000200#32) = .error (.notInScope (I ^^^ 0x00000200#32)) ∧
    decodeWord (I ^^^ 0x00000010#32) = .error (.notInScope (I ^^^ 0x00000010#32)) ∧
    decodeWord (I ^^^ 0x04000000#32) = .error (.notInScope (I ^^^ 0x04000000#32))

/-- spec/30_encoding.md section 6. The operands as they are written: of a word of `vmaddfp`, the fields of the
destination, A, C and B in this order, which is not their order in the word; of a word of `vmaddfp128`,
the destination, A, B and the destination again. The line as it is printed, registers spelt `v` and the
number (the spec's decision D22). An instruction's line is read back as the instruction, and a line that
is read is the line of a well-formed instruction; so a `vmaddfp128` line whose fourth operand is not its
first is no instruction, which is this model's choice (log 18). -/
def Obligations.AssemblyRoundTrip : Prop :=
  (∀ (I : Word) (vd va vc vb : VReg), decodeWord I = .ok (.vmaddfp vd va vc vb) →
    toAsm (.vmaddfp vd va vc vb) = ⟨"vmaddfp",
      [(srcBits I 6 10).toNat, (srcBits I 11 15).toNat, (srcBits I 21 25).toNat,
        (srcBits I 16 20).toNat]⟩) ∧
  (∀ (I : Word) (vd va vb : VReg), decodeWord I = .ok (.vmaddfp128 vd va vb) →
    toAsm (.vmaddfp128 vd va vb) = ⟨"vmaddfp128", [(vd128 I).val, (va128 I).val, (vb128 I).val,
      (vd128 I).val]⟩) ∧
  (∀ vd va vc vb : VReg, (toAsm (.vmaddfp vd va vc vb)).render =
    "vmaddfp v" ++ toString vd.val ++ ", v" ++ toString va.val ++ ", v" ++ toString vc.val ++ ", v"
      ++ toString vb.val) ∧
  (∀ vd va vb : VReg, (toAsm (.vmaddfp128 vd va vb)).render =
    "vmaddfp128 v" ++ toString vd.val ++ ", v" ++ toString va.val ++ ", v" ++ toString vb.val ++ ", v"
      ++ toString vd.val) ∧
  (∀ i : Instr, i.wf = true → assemble (toAsm i) = some i) ∧
  ∀ (l : AsmLine) (i : Instr), assemble l = some i → i.wf = true ∧ toAsm i = l

/-! ### Lane arithmetic -/

/-- spec/40_lane_numerics.md section 1: a pattern is its three fields, and the five classes have the
patterns that section lists (the format and classes are the spec's G1 and G2, from general
knowledge). -/
def Obligations.LaneClassesByPattern : Prop :=
  ∀ w : Lane,
    pack (signBit w) (expField w) (fracField w) = w ∧
    (classOf w = .zero ↔ w = 0x00000000#32 ∨ w = 0x80000000#32) ∧
    (classOf w = .denormal ↔
      (0x00000001 ≤ w.toNat ∧ w.toNat ≤ 0x007FFFFF) ∨
      (0x80000001 ≤ w.toNat ∧ w.toNat ≤ 0x807FFFFF)) ∧
    (classOf w = .normal ↔ 1 ≤ expField w ∧ expField w ≤ 254) ∧
    (classOf w = .inf ↔ w = 0x7F800000#32 ∨ w = 0xFF800000#32) ∧
    (classOf w = .nan ↔ expField w = 255 ∧ fracField w ≠ 0)

/-- spec/40_lane_numerics.md section 2: the flush keeps a denormal's sign bit and clears the rest (the
spec's decision D8), and keeps every bit of any other pattern. -/
def Obligations.FlushKeepsOnlyTheSign : Prop :=
  ∀ w : Lane,
    (classOf w = .denormal → flush w = w &&& 0x80000000#32) ∧
    (classOf w ≠ .denormal → flush w = w) ∧
    classOf (flush w) ≠ .denormal

/-- spec/40_lane_numerics.md section 1: the integers the machine computes with are the values of the
patterns, in units of `2^-149` (the values are the spec's G2, from general knowledge). -/
def Obligations.UnitsAreTheValues : Prop :=
  ∀ w : Lane, isFinite w = true → ((valUnits w : ℤ) : ℚ) = valQ w * 2 ^ 149

/-- R87: a NaN in any of the three lane inputs gives a NaN, whatever the other two are. -/
def Obligations.NanInputGivesNan : Prop :=
  ∀ (k : Nat) (a c b : Lane), classOf a = .nan ∨ classOf c = .nan ∨ classOf b = .nan →
    classOf (maddLane (nanResult k) a c b) = .nan

/-- R88: infinity times zero is a NaN, in either order, with any signs and any addend; a denormal
multiplicand is a zero here, since inputs are flushed first. -/
def Obligations.InfinityTimesZeroIsNan : Prop :=
  ∀ (k : Nat) (a c b : Lane),
    (classOf a = .inf ∧ (classOf c = .zero ∨ classOf c = .denormal)) ∨
      ((classOf a = .zero ∨ classOf a = .denormal) ∧ classOf c = .inf) →
    classOf (maddLane (nanResult k) a c b) = .nan

/-- R89: an infinite product and an addend that is the infinity of the opposite sign give a NaN. -/
def Obligations.InfinityMinusInfinityIsNan : Prop :=
  ∀ (k : Nat) (a c b : Lane), classOf a = .inf ∨ classOf c = .inf →
    classOf (flush a) ≠ .zero → classOf (flush c) ≠ .zero → classOf a ≠ .nan → classOf c ≠ .nan →
    classOf b = .inf → signBit b ≠ (signBit a ^^ signBit c) →
    classOf (maddLane (nanResult k) a c b) = .nan

/-- spec/40_lane_numerics.md section 3: the other infinities. An infinite product wins over a finite
addend and agrees with an infinite one of its sign; with both multiplicands finite an infinite addend
is the result, however large the product. -/
def Obligations.InfinityArithmetic : Prop :=
  ∀ (nan a c b : Lane),
    ((classOf a = .inf ∨ classOf c = .inf) → classOf (flush a) ≠ .zero → classOf (flush c) ≠ .zero →
      classOf a ≠ .nan → classOf c ≠ .nan →
      (isFinite b = true ∨ classOf b = .inf ∧ signBit b = (signBit a ^^ signBit c)) →
      maddLane nan a c b = infLane (signBit a ^^ signBit c)) ∧
    (isFinite a = true → isFinite c = true → classOf b = .inf → maddLane nan a c b = b)

/-- spec/40_lane_numerics.md section 3: with finite operands the machine's fused multiply-add is the exact
rational sum rounded once, by the procedure of that section as it is written (round to nearest, ties to
even: the spec's decision D9). -/
def Obligations.FusedSumRoundedOnce : Prop :=
  ∀ (nan a c b : Lane), isFinite a = true → isFinite c = true → isFinite b = true →
    sumQ a c b ≠ 0 → fma32 nan a c b = round32Q (sumQ a c b)

/-- What "round to nearest, ties to even" (the spec's decision D9) means: below the overflow threshold the
result is finite, no finite pattern lies nearer to the exact sum, and where another value is as near
the result is the even one. -/
def Obligations.RoundingIsNearestEven : Prop :=
  ∀ (nan a c b : Lane), isFinite a = true → isFinite c = true → isFinite b = true →
    sumQ a c b ≠ 0 → |sumQ a c b| < 2 ^ 128 - 2 ^ 103 →
    let S := sumQ a c b
    let r := fma32 nan a c b
    isFinite r = true ∧
    ∀ w : Lane, isFinite w = true →
      |valQ r - S| ≤ |valQ w - S| ∧
      (|valQ r - S| = |valQ w - S| → valQ w ≠ valQ r → fracField r % 2 = 0)

/-- spec/40_lane_numerics.md section 3: overflow gives the infinity of the sum's sign, exactly from the
threshold `2^128 - 2^103` on (the spec's decision D12). -/
def Obligations.OverflowGivesInfinity : Prop :=
  ∀ (nan a c b : Lane), isFinite a = true → isFinite c = true → isFinite b = true →
    let S := sumQ (flush a) (flush c) (flush b)
    (2 ^ 128 - 2 ^ 103 ≤ S → maddLane nan a c b = 0x7F800000#32) ∧
    (S ≤ -(2 ^ 128 - 2 ^ 103) → maddLane nan a c b = 0xFF800000#32) ∧
    (|S| < 2 ^ 128 - 2 ^ 103 → isFinite (maddLane nan a c b) = true)

/-- spec/40_lane_numerics.md section 3: the sign of an exact zero (the spec's decision D11), for operands
that are not denormal; and a zero product returns an addend that is not zero. -/
def Obligations.ExactZeroSigns : Prop :=
  ∀ (nan a c b : Lane), isFinite a = true → isFinite c = true → isFinite b = true →
    classOf a ≠ .denormal → classOf c ≠ .denormal → classOf b ≠ .denormal →
    ((classOf a = .zero ∨ classOf c = .zero) → classOf b = .zero →
      maddLane nan a c b =
        if (signBit a ^^ signBit c) = signBit b then zeroLane (signBit b) else 0x00000000#32) ∧
    ((classOf a = .zero ∨ classOf c = .zero) → classOf b ≠ .zero → maddLane nan a c b = b) ∧
    (classOf a ≠ .zero → classOf c ≠ .zero → sumQ a c b = 0 → maddLane nan a c b = 0x00000000#32)

/-- spec/40_lane_numerics.md section 3, consequences (a), (b) and (d) of the output flush: a tiny sum gives
the zero of its sign, except in the last half unit below the smallest normal, where rounding carries up
to that normal and nothing is flushed (the listing's order, the spec's D13). -/
def Obligations.OutputFlushEdges : Prop :=
  ∀ (nan a c b : Lane), isFinite a = true → isFinite c = true → isFinite b = true →
    let S := sumQ (flush a) (flush c) (flush b)
    (S ≠ 0 → |S| < 1 / 2 ^ 126 - 1 / 2 ^ 150 →
      maddLane nan a c b = zeroLane (decide (S < 0))) ∧
    (1 / 2 ^ 126 - 1 / 2 ^ 150 ≤ |S| → |S| < 1 / 2 ^ 126 →
      maddLane nan a c b = pack (decide (S < 0)) 1 0)

/-- spec/40_lane_numerics.md section 5, laws (1) to (3): no lane result is a denormal; the multiplicands
may be exchanged; flushing the inputs first changes nothing. -/
def Obligations.MaddLaneDenormalAndSymmetryLaws : Prop :=
  ∀ (k : Nat) (a c b : Lane),
    let r := maddLane (nanResult k) a c b
    classOf r ≠ .denormal ∧
    (classOf r ≠ .nan → r = maddLane (nanResult k) c a b) ∧
    (classOf r = .nan → classOf (maddLane (nanResult k) c a b) = .nan) ∧
    r = maddLane (nanResult k) (flush a) (flush c) (flush b)

/-- spec/40_lane_numerics.md section 5, laws (4) to (7): adding to `+0 * 1`; multiplying by 1 and adding
`-0`; negating `a` and `b`; the sign of an infinite result of finite inputs. -/
def Obligations.MaddLaneUnitAndSignLaws : Prop :=
  ∀ (k : Nat) (a c b : Lane),
    (classOf b = .normal ∨ classOf b = .zero →
      maddLane (nanResult k) 0x00000000#32 0x3F800000#32 b
        = if b = 0x80000000#32 then 0x00000000#32 else b) ∧
    (classOf a ≠ .nan →
      maddLane (nanResult k) a 0x3F800000#32 0x80000000#32 = flush a) ∧
    (classOf (maddLane (nanResult k) a c b) ≠ .nan → classOf (maddLane (nanResult k) a c b) ≠ .zero →
      maddLane (nanResult k) (a ^^^ 0x80000000#32) c (b ^^^ 0x80000000#32)
        = maddLane (nanResult k) a c b ^^^ 0x80000000#32) ∧
    (isFinite a = true → isFinite c = true → isFinite b = true →
      classOf (maddLane (nanResult k) a c b) = .inf →
      (signBit (maddLane (nanResult k) a c b) = true ↔ sumQ (flush a) (flush c) (flush b) < 0))

/-- `nanResult` (the spec's OPEN parameter, D10): what a draw becomes is a NaN, and every NaN pattern is
what some draw becomes, so no NaN is shut out (log 5). -/
def Obligations.NanDrawIsAnyNan : Prop :=
  ∀ w : Lane, (∃ draw : Lane, nanOf draw = w) ↔ classOf w = .nan

/-! ### The two instructions -/

/-- R110, from the word: any word that is `vmaddfp`'s, in any state, decodes and executes; each lane of
`v[VD]` is `madd_lane` of the old lanes of `v[VA]`, `v[VC]` and `v[VB]`, the numbers read from their
bits; `pc` grows by 4 modulo `2^PCW`; nothing else changes. A NaN lane is bound by its class alone. (The
model's own count of draws, log 5, is no part of this; `EachLaneTakesItsOwnDraw` has it.) -/
def Obligations.VmaddfpWordMeaning : Prop :=
  ∀ (I : Word) (s : State), I &&& 0xFC00003F#32 = 0x1000002E#32 →
    ∃ (i : Instr) (t : State) (vd va vc vb : VReg),
      decodeWord I = .ok i ∧ exec i s = .next t ∧
      vd.val = (srcBits I 6 10).toNat ∧ va.val = (srcBits I 11 15).toNat ∧
      vb.val = (srcBits I 16 20).toNat ∧ vc.val = (srcBits I 21 25).toNat ∧
      (∀ j : Fin 4, ∃ nan, classOf nan = .nan ∧ lane (t.v vd) j =
        flush (fma32 nan (flush (lane (s.v va) j)) (flush (lane (s.v vc) j))
          (flush (lane (s.v vb) j)))) ∧
      t.pc = (s.pc + 4) % 2 ^ s.cfg.pcw ∧ (∀ n, n ≠ vd → t.v n = s.v n) ∧ State.Kept s t

/-- R113: `vmaddfp` completes in every state with any operands; it reads `VA`, `VC` and `VB` as they were,
writes all of `VD` and `pc`, and writes nothing else of what the spec gives the machine. A NaN lane is
bound by its class alone. (The model's own count of draws, log 5, is no part of this;
`EachLaneTakesItsOwnDraw` has it.) -/
def Obligations.VmaddfpCompletes : Prop :=
  ∀ (vd va vc vb : VReg) (s : State),
    ∃ t : State, exec (.vmaddfp vd va vc vb) s = .next t ∧
      (∀ j : Fin 4,
        MaddResult (lane (s.v va) j) (lane (s.v vc) j) (lane (s.v vb) j) (lane (t.v vd) j)) ∧
      t.pc = (s.pc + 4) % 2 ^ s.cfg.pcw ∧ (∀ n, n ≠ vd → t.v n = s.v n) ∧ State.Kept s t

/-- R111: aliasing in `vmaddfp` is legal in every combination: whichever of the four operands are one
register, every lane comes from the old values. One register in every role gives `x*x + x` of each old
lane; and the rule's own example, the word `0x106318EE` on the lanes 3, -8, -4 and 25. A NaN lane is bound
by its class alone. -/
def Obligations.VmaddfpAliasing : Prop :=
  (∀ (vd va vc vb : VReg) (s : State), ∃ t : State, exec (.vmaddfp vd va vc vb) s = .next t ∧
    ∀ j : Fin 4,
      MaddResult (lane (s.v va) j) (lane (s.v vc) j) (lane (s.v vb) j) (lane (t.v vd) j)) ∧
  (∀ (n : VReg) (s : State), ∃ t : State, exec (.vmaddfp n n n n) s = .next t ∧
    ∀ j : Fin 4, MaddResult (lane (s.v n) j) (lane (s.v n) j) (lane (s.v n) j) (lane (t.v n) j)) ∧
  decodeWord 0x106318EE#32 = .ok (.vmaddfp 3 3 3 3) ∧
  ∀ s : State, s.v 3 = lanes 0x40400000#32 0xC1000000#32 0xC0800000#32 0x41C80000#32 →
    ∃ t : State, exec (.vmaddfp 3 3 3 3) s = .next t ∧
      t.v 3 = lanes 0x41400000#32 0x42600000#32 0x41400000#32 0x44228000#32

/-- spec/41_vmaddfp.md section 2, from the word: any word that is `vmaddfp128`'s, in any state, decodes and
executes; each lane of `v[VD128]` is `madd_lane` of the old lanes of `v[VA128]`, `v[VD128]` and
`v[VB128]`; `pc` grows by 4 modulo `2^PCW`; nothing else changes. That the last of these is the addend is
the spec's resolution of its conflict C1 (log 7, DEDUCED), and the places of the operand bits are its
reading D26 (log 15). A NaN lane is bound by its class alone. (The model's own count of draws, log 5, is no
part of this; `EachLaneTakesItsOwnDraw` has it.) -/
def Obligations.Vmaddfp128WordMeaning : Prop :=
  ∀ (I : Word) (s : State), I &&& 0xFC0003D0#32 = 0x140000D0#32 →
    ∃ (i : Instr) (t : State) (vd va vb : VReg),
      decodeWord I = .ok i ∧ exec i s = .next t ∧
      vd.val = (I.extractLsb' 2 2).toNat * 32 + (I.extractLsb' 21 5).toNat ∧
      va.val = (I.extractLsb' 10 1).toNat * 64 + (I.extractLsb' 5 1).toNat * 32
        + (I.extractLsb' 16 5).toNat ∧
      vb.val = (I.extractLsb' 0 2).toNat * 32 + (I.extractLsb' 11 5).toNat ∧
      (∀ j : Fin 4, ∃ nan, classOf nan = .nan ∧ lane (t.v vd) j =
        flush (fma32 nan (flush (lane (s.v va) j)) (flush (lane (s.v vd) j))
          (flush (lane (s.v vb) j)))) ∧
      t.pc = (s.pc + 4) % 2 ^ s.cfg.pcw ∧ (∀ n, n ≠ vd → t.v n = s.v n) ∧ State.Kept s t

/-- spec/41_vmaddfp.md section 2: `vmaddfp128` completes in every state with any operands; it reads `VA128`,
`VB128` and the old `VD128`, writes all of `VD128` and `pc`, and writes nothing else of what the spec gives
the machine. That `VB128` is the addend is the spec's resolution of its conflict C1 (log 7, DEDUCED). A NaN
lane is bound by its class alone. (The model's own count of draws, log 5, is no part of this;
`EachLaneTakesItsOwnDraw` has it.) -/
def Obligations.Vmaddfp128Completes : Prop :=
  ∀ (vd va vb : VReg) (s : State),
    ∃ t : State, exec (.vmaddfp128 vd va vb) s = .next t ∧
      (∀ j : Fin 4,
        MaddResult (lane (s.v va) j) (lane (s.v vd) j) (lane (s.v vb) j) (lane (t.v vd) j)) ∧
      t.pc = (s.pc + 4) % 2 ^ s.cfg.pcw ∧ (∀ n, n ≠ vd → t.v n = s.v n) ∧ State.Kept s t

/-- spec/41_vmaddfp.md section 2: aliasing in `vmaddfp128`, which the spec derives from the listing: `VA128`
or `VB128` or both may be `VD128`, and the old value is read. That `VB128` is the addend is the spec's
resolution of its conflict C1 (log 7, DEDUCED). A NaN lane is bound by its class alone. -/
def Obligations.Vmaddfp128Aliasing : Prop :=
  ∀ (n x : VReg) (s : State),
    (∃ t : State, exec (.vmaddfp128 n n x) s = .next t ∧ ∀ j : Fin 4,
      MaddResult (lane (s.v n) j) (lane (s.v n) j) (lane (s.v x) j) (lane (t.v n) j)) ∧
    (∃ t : State, exec (.vmaddfp128 n x n) s = .next t ∧ ∀ j : Fin 4,
      MaddResult (lane (s.v x) j) (lane (s.v n) j) (lane (s.v n) j) (lane (t.v n) j)) ∧
    (∃ t : State, exec (.vmaddfp128 n n n) s = .next t ∧ ∀ j : Fin 4,
      MaddResult (lane (s.v n) j) (lane (s.v n) j) (lane (s.v n) j) (lane (t.v n) j))

/-- R29, the frame of both instructions: `vmaddfp` changes `v[VRT]` and `pc`, `vmaddfp128` changes
`v[VD128]` and `pc`, and nothing else changes: the 127 other vector registers, every status bit, every
other register and mode, every byte of memory. (The model's own count of draws moves too, log 5.) -/
def Obligations.FrameOfBothInstructions : Prop :=
  (∀ (vd va vc vb : VReg) (s t : State), exec (.vmaddfp vd va vc vb) s = .next t →
    (∀ n, n ≠ vd → t.v n = s.v n) ∧ State.Kept s t) ∧
  ∀ (vd va vb : VReg) (s t : State), exec (.vmaddfp128 vd va vb) s = .next t →
    (∀ n, n ≠ vd → t.v n = s.v n) ∧ State.Kept s t

/-- R81: lane `j` of a result depends on lane `j` of each source register and on nothing else. Two states
that agree in those lanes give the same lane, or a NaN each, whatever they hold elsewhere: other lanes,
other registers, `VSCR`, modes, memory, parameters, and however many instructions ran before. (Which NaN
is in no rule, so two NaN lanes may differ.) -/
def Obligations.LanesAreIndependent : Prop :=
  (∀ (vd va vc vb : VReg) (j : Fin 4) (s s' t t' : State),
    lane (s.v va) j = lane (s'.v va) j → lane (s.v vc) j = lane (s'.v vc) j →
    lane (s.v vb) j = lane (s'.v vb) j →
    exec (.vmaddfp vd va vc vb) s = .next t → exec (.vmaddfp vd va vc vb) s' = .next t' →
    lane (t.v vd) j = lane (t'.v vd) j ∨
      classOf (lane (t.v vd) j) = .nan ∧ classOf (lane (t'.v vd) j) = .nan) ∧
  ∀ (vd va vb : VReg) (j : Fin 4) (s s' t t' : State),
    lane (s.v va) j = lane (s'.v va) j → lane (s.v vd) j = lane (s'.v vd) j →
    lane (s.v vb) j = lane (s'.v vb) j →
    exec (.vmaddfp128 vd va vb) s = .next t → exec (.vmaddfp128 vd va vb) s' = .next t' →
    lane (t.v vd) j = lane (t'.v vd) j ∨
      classOf (lane (t.v vd) j) = .nan ∧ classOf (lane (t'.v vd) j) = .nan

/-- R120 and R121: neither instruction stops, with any operands and in any state, and none leaves a trace
in `VSCR`, `XER` or CR. -/
def Obligations.NoExceptionAndNoStickyBit : Prop :=
  ∀ (i : Instr) (s : State),
    (∃ t : State, exec i s = .next t ∧ t.vscr = s.vscr ∧ t.xer = s.xer ∧ t.cr = s.cr) ∧
    (∀ f, exec i s ≠ .fault f) ∧ ∀ r, exec i s ≠ .refused r

/-- spec/41_vmaddfp.md section 2: below 32, `vmaddfp128 VD, VA, VB, VD` does to the state what
`vmaddfp VD, VA, VD, VB` does. -/
def Obligations.TheTwoInstructionsAgree : Prop :=
  ∀ (vd va vb : VReg) (s : State), (Instr.vmaddfp vd va vd vb).wf = true →
    exec (.vmaddfp128 vd va vb) s = exec (.vmaddfp vd va vd vb) s

/-- spec/90_conflicts.md C1 and the switch of D6: the reading the machine runs has `VB128` as the addend;
the two readings give one state where `VB128` and `VD128` hold the same value. -/
def Obligations.AddendReadings : Prop :=
  ∀ (vd va vb : VReg) (s : State),
    (let src := vmaddfp128Sources .vb vd vb
     exec (.vmaddfp128 vd va vb) s = .next (s.maddInto vd va src.1 src.2)) ∧
    (s.v vb = s.v vd →
      (let src := vmaddfp128Sources .vd vd vb
       exec (.vmaddfp128 vd va vb) s = .next (s.maddInto vd va src.1 src.2)))

/-- spec/41_vmaddfp.md section 1, the multiply idiom, which the spec derives: with an addend of `+0` in each
lane, `vmaddfp` gives the once-rounded, flushed product of finite lanes, and `+0` for a zero product;
with an addend of `-0` a zero product keeps its sign. -/
def Obligations.MultiplyIdiom : Prop :=
  ∀ (vd va vc vb : VReg) (s : State) (z : Bool),
    (∀ j : Fin 4, lane (s.v vb) j = zeroLane z) →
    ∃ t : State, exec (.vmaddfp vd va vc vb) s = .next t ∧
      ∀ j : Fin 4, isFinite (lane (s.v va) j) = true → isFinite (lane (s.v vc) j) = true →
        let a := flush (lane (s.v va) j)
        let c := flush (lane (s.v vc) j)
        (valQ a * valQ c ≠ 0 → lane (t.v vd) j = flush (round32Q (valQ a * valQ c))) ∧
        (valQ a * valQ c = 0 → lane (t.v vd) j = zeroLane (z && (signBit a ^^ signBit c)))

/-! ### The step -/

/-- spec/70_reset_and_hazards.md section 3: a step from an aligned `pc` inside the program, under the
premise `vmx_enabled` (D14), is the execution of the instruction that the four bytes at `pc` decode to,
the byte at `pc` the most significant (D2). The instruction itself moves `pc`; the step adds nothing. -/
def Obligations.StepRunsTheDecodedInstruction : Prop :=
  ∀ (s : State) (b0 b1 b2 b3 : Byte) (i : Instr), s.vmxEnabled = true → s.pc % 4 = 0 →
    s.inRegion = true →
    s.mem.read s.pc = some b0 → s.mem.read (s.pc + 1) = some b1 →
    s.mem.read (s.pc + 2) = some b2 → s.mem.read (s.pc + 3) = some b3 →
    decodeWord (wordOfBytes b0 b1 b2 b3) = .ok i → step s = exec i s

/-- spec/20_memory.md sections 2 and 3: an aligned fetch inside the region gives the word whose most
significant byte is the byte at `pc` and whose least significant is the one at `pc + 3` (the spec's
decision D2), and laying that word out again gives the four bytes in the order of their addresses. -/
def Obligations.FetchIsBigEndian : Prop :=
  ∀ (s : State) (b0 b1 b2 b3 : Byte), s.pc % 4 = 0 → s.inRegion = true →
    s.mem.read s.pc = some b0 → s.mem.read (s.pc + 1) = some b1 →
    s.mem.read (s.pc + 2) = some b2 → s.mem.read (s.pc + 3) = some b3 →
    ∃ I : Word, s.fetch = .next I ∧
      I.toNat = b0.toNat * 2 ^ 24 + b1.toNat * 2 ^ 16 + b2.toNat * 2 ^ 8 + b3.toNat ∧
      bytesOfWord I = [b0, b1, b2, b3]

/-- Where a step stops and under which name: the spec's decisions D3, D16, D25 and D4, in the order of
spec/60_exceptions.md section 3. That a state without the premise `vmx_enabled` is refused as
`vmxDisabled`, and before any of these, is this model's choice (log 9): D14 only names the premise. -/
def Obligations.WhereAStepIsRefused : Prop :=
  ∀ s : State,
    (s.vmxEnabled = false → step s = .refused .vmxDisabled) ∧
    (s.vmxEnabled = true → s.pc % 4 ≠ 0 → step s = .refused (.misalignedPc s.pc)) ∧
    (s.vmxEnabled = true → s.pc % 4 = 0 → s.inRegion = false → s.pc = s.endPc →
      step s = .refused .runEnded) ∧
    (s.vmxEnabled = true → s.pc % 4 = 0 → s.inRegion = false → s.pc ≠ s.endPc →
      step s = .refused (.pcOutsideProgram s.pc)) ∧
    ∀ I : Word, s.vmxEnabled = true → s.pc % 4 = 0 → s.inRegion = true →
      s.mem.readWord s.pc = .next I → rowVmaddfp.selects I = false → rowVmaddfp128.selects I = false →
      step s = .refused (.notInScope I)

/-- The model's choice of log 6: a fetch faults exactly on the first of its four addresses that lies in the
program's region with no byte loaded there, and nothing else ever faults. -/
def Obligations.OnlyAnUnloadedByteFaults : Prop :=
  (∀ (s : State) (f : Fault), step s = .fault f →
    ∃ a, f = .unloadedByte a ∧ s.pc ≤ a ∧ a < s.pc + 4 ∧ s.mem.read a = none ∧
      ∀ a', s.pc ≤ a' → a' < a → (s.mem.read a').isSome = true) ∧
  ∀ s : State, s.vmxEnabled = true → s.pc % 4 = 0 → s.inRegion = true →
    (∃ a, s.pc ≤ a ∧ a < s.pc + 4 ∧ s.mem.read a = none) → ∃ f, step s = .fault f

/-- Every step keeps the invariant: `pc` stays an aligned address, the region, the parameters and the
canonical form of memory stay as they must be. (Alignment is the spec's decision D3, the wrap D1.) -/
def Obligations.StepKeepsTheInvariant : Prop :=
  ∀ s t : State, s.Inv → step s = .next t → t.Inv

/-- The state after reset meets the invariant (logs 1 to 4). -/
def Obligations.ResetMeetsTheInvariant : Prop := State.reset.Inv

/-- What any step can change at all: `pc`, which grows by 4, and one vector register. The program text never
changes (D18), nor a status bit, a mode or a parameter. -/
def Obligations.WhatAStepCanChange : Prop :=
  ∀ s t : State, step s = .next t →
    State.Kept s t ∧ t.pc = (s.pc + 4) % 2 ^ s.cfg.pcw ∧ ∃ n, ∀ m, m ≠ n → t.v m = s.v m

/-- spec/70_reset_and_hazards.md section 3: a run that starts at `base` executes the `len/4` words once each
and is then just past the program, the text as it was (the spec's definition D16). -/
def Obligations.StraightLineRunReachesItsEnd : Prop :=
  ∀ s : State, s.Inv → s.vmxEnabled = true → s.pc = s.region.base → s.ProgramInScope →
    (∃ t : State, core.run (s.region.len / 4) s = .next t ∧ t.pc = s.endPc ∧ State.Kept s t) ∧
    ∀ k, k < s.region.len / 4 →
      ∃ t : State, core.run k s = .next t ∧ t.pc = s.region.base + 4 * k ∧ Safe t

/-- spec/70_reset_and_hazards.md section 4: an instruction sees what the one right before it wrote. Two
steps over two words that follow each other are the second instruction in the state the first left. -/
def Obligations.BackToBackInstructions : Prop :=
  ∀ (s t : State) (I J : Word) (i j : Instr), s.Inv → s.vmxEnabled = true → s.inRegion = true →
    s.pc + 8 ≤ s.region.base + s.region.len → s.pc + 8 ≤ 2 ^ s.cfg.pcw →
    s.mem.readWord s.pc = .next I → s.mem.readWord (s.pc + 4) = .next J →
    decodeWord I = .ok i → decodeWord J = .ok j → exec i s = .next t →
    core.run 2 s = exec j t

/-! ### Launch, memory and reset -/

/-- spec/70_reset_and_hazards.md section 2 (1): a loaded program is read back word by word, and the bytes
outside it are as they were. -/
def Obligations.LoadedProgramReadsBack : Prop :=
  ∀ (m : Memory) (base : Nat) (ws : List Word),
    (∀ k I, ws[k]? = some I → (m.writeWords base ws).readWord (base + 4 * k) = .next I) ∧
    ∀ a, a < base ∨ base + 4 * ws.length ≤ a → (m.writeWords base ws).read a = m.read a

/-- The state made to fetch a word (log 4) keeps the invariant and fetches that word next, and then runs it;
what the decoder reads of a table word is that instruction. No register, no status bit, no mode and no
parameter is changed. -/
def Obligations.PlacedWordIsTheNextToRun : Prop :=
  ∀ (s : State) (w : Nat) (i : Instr), s.Inv → s.vmxEnabled = true → w < 2 ^ 32 →
    decodeTableWord 32 w = some i →
    let t := s.withFetchWord 32 w
    t.Inv ∧ t.pc = s.pc ∧ (∀ n, t.v n = s.v n) ∧ t.vscr = s.vscr ∧ t.cr = s.cr ∧ t.xer = s.xer ∧
    (∀ n, t.gprAt n = s.gprAt n) ∧ (∀ n, t.fprAt n = s.fprAt n) ∧ t.privMode = s.privMode ∧
    t.intMask = s.intMask ∧ t.vmxEnabled = s.vmxEnabled ∧ t.cfg = s.cfg ∧ t.draws = s.draws ∧
    decodeWord (BitVec.ofNat 32 w) = .ok i ∧ step t = exec i t

/-- spec/20_memory.md section 2: the image of a register in memory and the register an image stands for
are each other's inverse, lane 0 being bytes 0 to 3. -/
def Obligations.RegisterImage : Prop :=
  (∀ x : Vec, vecOfImage (vecImage x) = x) ∧ (∀ b : Vector Byte 16, vecImage (vecOfImage b) = b) ∧
  ∀ (x : Vec) (i : Fin 4),
    wordOfBytes (vecImage x)[4 * i.val] (vecImage x)[4 * i.val + 1] (vecImage x)[4 * i.val + 2]
      (vecImage x)[4 * i.val + 3] = lane x i

/-- spec/10_state.md section 6: after reset `VSCR[NJ]` is 1, the one value the source gives (a launch premise,
D7); the vector unit is enabled by premise (D14); the vector registers hold the launch's values, of which
nothing is known (log 3); with no program loaded the run is over, and a step says so (log 4). -/
def Obligations.AfterReset : Prop :=
  State.reset.njIs1 ∧ State.reset.vmxEnabled = true ∧
  (∀ n : VReg, State.reset.v n = Config.launchVr n.val) ∧
  (∀ a, State.reset.mem.read a = none) ∧ step State.reset = .refused .runEnded

/-! ### The model's own draws -/

/-- The model's choice of log 5, on which no rule rests: should lane `j` be a NaN it is draw number
`draws + j` of the state before, and each execution of either instruction moves the count of draws on by
four, NaN or not. (That `VB128` is the addend is log 7.) -/
def Obligations.EachLaneTakesItsOwnDraw : Prop :=
  (∀ (vd va vc vb : VReg) (s : State), ∃ t : State, exec (.vmaddfp vd va vc vb) s = .next t ∧
    t.draws = s.draws + 4 ∧ ∀ j : Fin 4, lane (t.v vd) j =
      maddLane (nanResult (s.draws + j.val)) (lane (s.v va) j) (lane (s.v vc) j) (lane (s.v vb) j)) ∧
  ∀ (vd va vb : VReg) (s : State), ∃ t : State, exec (.vmaddfp128 vd va vb) s = .next t ∧
    t.draws = s.draws + 4 ∧ ∀ j : Fin 4, lane (t.v vd) j =
      maddLane (nanResult (s.draws + j.val)) (lane (s.v va) j) (lane (s.v vd) j) (lane (s.v vb) j)
end

