-- ==== Sys2Proof/Laws/State.lean ====
section
/-! SUPPORT. One lemma for each field and each update of State, so that no proof unfolds an update. -/

namespace Sys2Proof.Machine

variable (s : State)

/-! ### `setV` -/

@[simp] theorem setV_vr (n : VReg) (x : Vec) : (s.setV n x).vr = s.vr.set n x := rfl
@[simp] theorem setV_pc (n : VReg) (x : Vec) : (s.setV n x).pc = s.pc := rfl
@[simp] theorem setV_vscr (n : VReg) (x : Vec) : (s.setV n x).vscr = s.vscr := rfl
@[simp] theorem setV_cr (n : VReg) (x : Vec) : (s.setV n x).cr = s.cr := rfl
@[simp] theorem setV_xer (n : VReg) (x : Vec) : (s.setV n x).xer = s.xer := rfl
@[simp] theorem setV_gpr (n : VReg) (x : Vec) : (s.setV n x).gpr = s.gpr := rfl
@[simp] theorem setV_fpr (n : VReg) (x : Vec) : (s.setV n x).fpr = s.fpr := rfl
@[simp] theorem setV_privMode (n : VReg) (x : Vec) : (s.setV n x).privMode = s.privMode := rfl
@[simp] theorem setV_intMask (n : VReg) (x : Vec) : (s.setV n x).intMask = s.intMask := rfl
@[simp] theorem setV_vmxEnabled (n : VReg) (x : Vec) : (s.setV n x).vmxEnabled = s.vmxEnabled := rfl
@[simp] theorem setV_mem (n : VReg) (x : Vec) : (s.setV n x).mem = s.mem := rfl
@[simp] theorem setV_region (n : VReg) (x : Vec) : (s.setV n x).region = s.region := rfl
@[simp] theorem setV_cfg (n : VReg) (x : Vec) : (s.setV n x).cfg = s.cfg := rfl
@[simp] theorem setV_draws (n : VReg) (x : Vec) : (s.setV n x).draws = s.draws := rfl

/-! ### `advancePc` -/

@[simp] theorem advancePc_vr : s.advancePc.vr = s.vr := rfl
@[simp] theorem advancePc_pc : s.advancePc.pc = (s.pc + 4) % 2 ^ s.cfg.pcw := rfl
@[simp] theorem advancePc_vscr : s.advancePc.vscr = s.vscr := rfl
@[simp] theorem advancePc_cr : s.advancePc.cr = s.cr := rfl
@[simp] theorem advancePc_xer : s.advancePc.xer = s.xer := rfl
@[simp] theorem advancePc_gpr : s.advancePc.gpr = s.gpr := rfl
@[simp] theorem advancePc_fpr : s.advancePc.fpr = s.fpr := rfl
@[simp] theorem advancePc_privMode : s.advancePc.privMode = s.privMode := rfl
@[simp] theorem advancePc_intMask : s.advancePc.intMask = s.intMask := rfl
@[simp] theorem advancePc_vmxEnabled : s.advancePc.vmxEnabled = s.vmxEnabled := rfl
@[simp] theorem advancePc_mem : s.advancePc.mem = s.mem := rfl
@[simp] theorem advancePc_region : s.advancePc.region = s.region := rfl
@[simp] theorem advancePc_cfg : s.advancePc.cfg = s.cfg := rfl
@[simp] theorem advancePc_draws : s.advancePc.draws = s.draws := rfl

/-! ### `useDraws` -/

@[simp] theorem useDraws_vr : s.useDraws.vr = s.vr := rfl
@[simp] theorem useDraws_pc : s.useDraws.pc = s.pc := rfl
@[simp] theorem useDraws_vscr : s.useDraws.vscr = s.vscr := rfl
@[simp] theorem useDraws_cr : s.useDraws.cr = s.cr := rfl
@[simp] theorem useDraws_xer : s.useDraws.xer = s.xer := rfl
@[simp] theorem useDraws_gpr : s.useDraws.gpr = s.gpr := rfl
@[simp] theorem useDraws_fpr : s.useDraws.fpr = s.fpr := rfl
@[simp] theorem useDraws_privMode : s.useDraws.privMode = s.privMode := rfl
@[simp] theorem useDraws_intMask : s.useDraws.intMask = s.intMask := rfl
@[simp] theorem useDraws_vmxEnabled : s.useDraws.vmxEnabled = s.vmxEnabled := rfl
@[simp] theorem useDraws_mem : s.useDraws.mem = s.mem := rfl
@[simp] theorem useDraws_region : s.useDraws.region = s.region := rfl
@[simp] theorem useDraws_cfg : s.useDraws.cfg = s.cfg := rfl
@[simp] theorem useDraws_draws : s.useDraws.draws = s.draws + 4 := rfl

/-! ### `loadProgram` -/

@[simp] theorem loadProgram_vr (base : Nat) (ws : List Word) :
    (s.loadProgram base ws).vr = s.vr := rfl
@[simp] theorem loadProgram_pc (base : Nat) (ws : List Word) :
    (s.loadProgram base ws).pc = base := rfl
@[simp] theorem loadProgram_vscr (base : Nat) (ws : List Word) :
    (s.loadProgram base ws).vscr = s.vscr := rfl
@[simp] theorem loadProgram_cr (base : Nat) (ws : List Word) :
    (s.loadProgram base ws).cr = s.cr := rfl
@[simp] theorem loadProgram_xer (base : Nat) (ws : List Word) :
    (s.loadProgram base ws).xer = s.xer := rfl
@[simp] theorem loadProgram_gpr (base : Nat) (ws : List Word) :
    (s.loadProgram base ws).gpr = s.gpr := rfl
@[simp] theorem loadProgram_fpr (base : Nat) (ws : List Word) :
    (s.loadProgram base ws).fpr = s.fpr := rfl
@[simp] theorem loadProgram_privMode (base : Nat) (ws : List Word) :
    (s.loadProgram base ws).privMode = s.privMode := rfl
@[simp] theorem loadProgram_intMask (base : Nat) (ws : List Word) :
    (s.loadProgram base ws).intMask = s.intMask := rfl
@[simp] theorem loadProgram_vmxEnabled (base : Nat) (ws : List Word) :
    (s.loadProgram base ws).vmxEnabled = s.vmxEnabled := rfl
@[simp] theorem loadProgram_mem (base : Nat) (ws : List Word) :
    (s.loadProgram base ws).mem = s.mem.writeWords base ws := rfl
@[simp] theorem loadProgram_region (base : Nat) (ws : List Word) :
    (s.loadProgram base ws).region = ⟨base, 4 * ws.length⟩ := rfl
@[simp] theorem loadProgram_cfg (base : Nat) (ws : List Word) :
    (s.loadProgram base ws).cfg = s.cfg := rfl
@[simp] theorem loadProgram_draws (base : Nat) (ws : List Word) :
    (s.loadProgram base ws).draws = s.draws := rfl

/-! ### `maddInto` -/

@[simp] theorem maddInto_vr (vd a c b : VReg) :
    (s.maddInto vd a c b).vr = s.vr.set vd (maddVec s.draws (s.v a) (s.v c) (s.v b)) := rfl
@[simp] theorem maddInto_pc (vd a c b : VReg) :
    (s.maddInto vd a c b).pc = (s.pc + 4) % 2 ^ s.cfg.pcw := rfl
@[simp] theorem maddInto_vscr (vd a c b : VReg) : (s.maddInto vd a c b).vscr = s.vscr := rfl
@[simp] theorem maddInto_cr (vd a c b : VReg) : (s.maddInto vd a c b).cr = s.cr := rfl
@[simp] theorem maddInto_xer (vd a c b : VReg) : (s.maddInto vd a c b).xer = s.xer := rfl
@[simp] theorem maddInto_gpr (vd a c b : VReg) : (s.maddInto vd a c b).gpr = s.gpr := rfl
@[simp] theorem maddInto_fpr (vd a c b : VReg) : (s.maddInto vd a c b).fpr = s.fpr := rfl
@[simp] theorem maddInto_privMode (vd a c b : VReg) :
    (s.maddInto vd a c b).privMode = s.privMode := rfl
@[simp] theorem maddInto_intMask (vd a c b : VReg) :
    (s.maddInto vd a c b).intMask = s.intMask := rfl
@[simp] theorem maddInto_vmxEnabled (vd a c b : VReg) :
    (s.maddInto vd a c b).vmxEnabled = s.vmxEnabled := rfl
@[simp] theorem maddInto_mem (vd a c b : VReg) : (s.maddInto vd a c b).mem = s.mem := rfl
@[simp] theorem maddInto_region (vd a c b : VReg) : (s.maddInto vd a c b).region = s.region := rfl
@[simp] theorem maddInto_cfg (vd a c b : VReg) : (s.maddInto vd a c b).cfg = s.cfg := rfl
@[simp] theorem maddInto_draws (vd a c b : VReg) : (s.maddInto vd a c b).draws = s.draws + 4 := rfl

/-! ### Reading registers -/

theorem v_eq (n : VReg) : s.v n = s.vr[n.val] := rfl

/-- What was written is read. -/
@[simp] theorem v_setV_self (n : VReg) (x : Vec) : (s.setV n x).v n = x := by
  simp [v_eq]

/-- A write leaves every other register alone. -/
theorem v_setV_ne (n m : VReg) (x : Vec) (h : m ≠ n) : (s.setV n x).v m = s.v m := by
  have : n.val ≠ m.val := fun e => h (Fin.ext e.symm)
  simp [v_eq, Vector.getElem_set_ne _ _ this]

@[simp] theorem v_useDraws (n : VReg) : s.useDraws.v n = s.v n := rfl
@[simp] theorem v_advancePc (n : VReg) : s.advancePc.v n = s.v n := rfl

/-- The destination holds the sums of the old registers (R110, R114). -/
@[simp] theorem v_maddInto_self (vd a c b : VReg) :
    (s.maddInto vd a c b).v vd = maddVec s.draws (s.v a) (s.v c) (s.v b) :=
  v_setV_self s vd _

/-- Every other register is as before (R29). -/
theorem v_maddInto_ne (vd a c b n : VReg) (h : n ≠ vd) : (s.maddInto vd a c b).v n = s.v n :=
  v_setV_ne s vd n _ h

end Sys2Proof.Machine
end

