-- ==== Sys2Proof/Laws/Lanes.lean ====
section
/-! SUPPORT. Registers and their lanes: each is determined by the other (spec/00_scope.md R11). -/

namespace Sys2Proof.Machine

/-- `lane(lanes(w0,w1,w2,w3), i) = wi` (R11). -/
@[simp] theorem lane_lanesOf (f : Fin 4 → Lane) (i : Fin 4) : lane (lanesOf f) i = f i := by
  apply BitVec.eq_of_getLsbD_eq
  intro k hk
  simp only [lane, lanesOf, lanes, BitVec.getLsbD_extractLsb', BitVec.getLsbD_append]
  fin_cases i <;> interval_cases k <;> rfl

/-- Two registers with the same lanes are the same. -/
theorem vec_ext (x y : Vec) (h : ∀ i, lane x i = lane y i) : x = y := by
  apply BitVec.eq_of_getLsbD_eq
  intro k hk
  have bit : ∀ (z : Vec) (i : Fin 4) (j : Nat), j < 32 →
      (lane z i).getLsbD j = z.getLsbD (96 - 32 * i.val + j) := by
    intro z i j hj
    simp [lane, hj]
  have hi : 3 - k / 32 < 4 := by omega
  have hx := bit x ⟨3 - k / 32, hi⟩ (k % 32) (by omega)
  have hy := bit y ⟨3 - k / 32, hi⟩ (k % 32) (by omega)
  have hk' : 96 - 32 * (3 - k / 32) + k % 32 = k := by omega
  simp only [hk'] at hx hy
  rw [← hx, ← hy, h]

/-- Lane `i` of the four sums is the sum of the lanes `i` (R81, R110). -/
@[simp] theorem lane_maddVec (draws : Nat) (A C B : Vec) (i : Fin 4) :
    lane (maddVec draws A C B) i
      = maddLane (nanResult (draws + i.val)) (lane A i) (lane C i) (lane B i) :=
  lane_lanesOf _ i

/-- Filling the exponent and setting the top fraction bit makes any pattern a NaN. -/
theorem classOf_or_quiet (d : Lane) : classOf (d ||| 0x7FC00000#32) = .nan := by
  have he : expField (d ||| 0x7FC00000#32) = 255 := by
    have : (d ||| 0x7FC00000#32).extractLsb' 23 8 = 0xFF#8 := by
      apply BitVec.eq_of_getLsbD_eq
      intro k hk
      simp only [BitVec.getLsbD_extractLsb', BitVec.getLsbD_or]
      interval_cases k <;> simp
    simp [expField, this]
  have hf : fracField (d ||| 0x7FC00000#32) ≠ 0 := by
    intro h
    have h0 : (d ||| 0x7FC00000#32).extractLsb' 0 23 = 0#23 := BitVec.eq_of_toNat_eq h
    have hb := congrArg (fun x => x.getLsbD 22) h0
    simp at hb
  simp [classOf, he, hf]

/-- Every draw is a NaN (R96). -/
@[simp] theorem classOf_nanResult (k : Nat) : classOf (nanResult k) = .nan := by
  unfold nanResult nanOf
  split
  · assumption
  · exact classOf_or_quiet _

/-- The output flush never alters a draw (R96). -/
@[simp] theorem flush_nanResult (k : Nat) : flush (nanResult k) = nanResult k := by
  simp [flush]

/-- Whatever number the draw has, a lane of the machine is a result that `madd_lane` may have (R85, R96). -/
theorem maddResult_nanResult (k : Nat) (a c b : Lane) :
    MaddResult a c b (maddLane (nanResult k) a c b) :=
  ⟨nanResult k, classOf_nanResult k, rfl⟩

end Sys2Proof.Machine
end

