-- ==== Sys2Proof/Laws/Memory.lean ====
section
/-! SUPPORT. The laws of memory: a read after a write, and the canonical form that every operation keeps. -/

namespace Sys2Proof.Machine

/-- Where every listed address is above `a`, nothing is read at `a`. -/
theorem read_eq_none_of_lt (m : Memory) (a : Nat) (h : ∀ c ∈ m, a < c.1) : m.read a = none := by
  induction m with
  | nil => rfl
  | cons c m ih =>
    obtain ⟨k, v⟩ := c
    have hk : a < k := h (k, v) (by simp)
    simp only [Memory.read, Nat.ne_of_gt hk, if_false]
    exact ih fun c hc => h c (by simp [hc])

@[simp] theorem read_write_self (m : Memory) (a : Nat) (b : Byte) : (m.write a b).read a = some b := by
  induction m with
  | nil => simp [Memory.write, Memory.read]
  | cons c m ih =>
    obtain ⟨k, v⟩ := c
    simp only [Memory.write]
    split
    · simp [Memory.read]
    · split
      · simp [Memory.read]
      · rename_i h
        simp [Memory.read, Ne.symm h, ih]

theorem read_write_ne (m : Memory) (a a' : Nat) (b : Byte) (h : a' ≠ a) :
    (m.write a b).read a' = m.read a' := by
  induction m with
  | nil => simp [Memory.write, Memory.read, Ne.symm h]
  | cons c m ih =>
    obtain ⟨k, v⟩ := c
    simp only [Memory.write]
    split
    · simp [Memory.read, Ne.symm h]
    · split
      · rename_i hk
        subst hk
        simp [Memory.read, Ne.symm h]
      · simp [Memory.read, ih]

/-- The addresses listed after a write are the ones before it and the one written. -/
theorem mem_write (m : Memory) (a : Nat) (b : Byte) (c : Host.Cell) (h : c ∈ m.write a b) :
    c.1 = a ∨ c ∈ m := by
  induction m with
  | nil => simp [Memory.write] at h; simp [h]
  | cons d m ih =>
    obtain ⟨k, v⟩ := d
    simp only [Memory.write] at h
    split at h
    · rcases List.mem_cons.1 h with rfl | h
      · exact .inl rfl
      · exact .inr h
    · split at h
      · rcases List.mem_cons.1 h with rfl | h
        · exact .inl rfl
        · exact .inr (List.mem_cons_of_mem _ h)
      · rcases List.mem_cons.1 h with rfl | h
        · exact .inr (List.mem_cons_self ..)
        · exact (ih h).imp_right (List.mem_cons_of_mem _)

/-- A write keeps the canonical form. -/
theorem write_wf (m : Memory) (a : Nat) (b : Byte) (h : m.wf) : (m.write a b).wf := by
  induction m with
  | nil => simp [Memory.write]
  | cons c m ih =>
    obtain ⟨k, v⟩ := c
    obtain ⟨hk, hm⟩ := List.pairwise_cons.1 h
    simp only [Memory.write]
    split
    · rename_i ha
      refine List.pairwise_cons.2 ⟨fun d hd => ?_, h⟩
      rcases List.mem_cons.1 hd with rfl | hd
      · exact ha
      · exact Nat.lt_trans ha (hk d hd)
    · split
      · rename_i _ ha
        subst ha
        exact List.pairwise_cons.2 ⟨hk, hm⟩
      · refine List.pairwise_cons.2 ⟨fun d hd => ?_, ih hm⟩
        rcases mem_write m a b d hd with hd | hd
        · simp only [hd]; omega
        · exact hk d hd

theorem writeBytes_wf (m : Memory) (a : Nat) (bs : List Byte) (h : m.wf) : (m.writeBytes a bs).wf := by
  induction bs generalizing m a with
  | nil => exact h
  | cons b bs ih => exact ih _ _ (write_wf m a b h)

theorem writeWord_wf (m : Memory) (a : Nat) (I : Word) (h : m.wf) : (m.writeWord a I).wf :=
  writeBytes_wf m a _ h

theorem writeWords_wf (m : Memory) (a : Nat) (ws : List Word) (h : m.wf) : (m.writeWords a ws).wf := by
  induction ws generalizing m a with
  | nil => exact h
  | cons I ws ih => exact ih _ _ (writeWord_wf m a I h)

/-- The memory after reset is canonical. -/
theorem reset_mem_wf : State.reset.mem.wf := List.Pairwise.nil

/-- Bytes below the ones written are as before. -/
theorem read_writeBytes_of_lt (m : Memory) (a a' : Nat) (bs : List Byte) (h : a' < a) :
    (m.writeBytes a bs).read a' = m.read a' := by
  induction bs generalizing m a with
  | nil => rfl
  | cons b bs ih =>
    rw [Memory.writeBytes, ih _ _ (by omega), read_write_ne _ _ _ _ (by omega)]

/-- A word cut into bytes and put together again is the word (R41). -/
theorem wordOfBytes_bytesOfWord (I : Word) :
    wordOfBytes (srcBits I 0 7) (srcBits I 8 15) (srcBits I 16 23) (srcBits I 24 31) = I := by
  apply BitVec.eq_of_getLsbD_eq
  intro k hk
  simp only [wordOfBytes, srcBits, BitVec.getLsbD_append, BitVec.getLsbD_extractLsb']
  interval_cases k <;> rfl

/-- A read of a word gives the four bytes that are there, put together (R41). -/
theorem readWord_of_bytes (m : Memory) (a : Nat) (b0 b1 b2 b3 : Byte) (h0 : m.read a = some b0)
    (h1 : m.read (a + 1) = some b1) (h2 : m.read (a + 2) = some b2) (h3 : m.read (a + 3) = some b3) :
    m.readWord a = .next (wordOfBytes b0 b1 b2 b3) := by
  simp [Memory.readWord, Memory.readBytes, h0, h1, h2, h3]

/-- A word that was written is read. -/
@[simp] theorem readWord_writeWord (m : Memory) (a : Nat) (I : Word) :
    (m.writeWord a I).readWord a = .next I := by
  have h := readWord_of_bytes (m.writeWord a I) a (srcBits I 0 7) (srcBits I 8 15) (srcBits I 16 23)
    (srcBits I 24 31)
  rw [wordOfBytes_bytesOfWord] at h
  apply h <;> simp (disch := omega) [Memory.writeWord, bytesOfWord, Memory.writeBytes, read_write_ne]

end Sys2Proof.Machine
end

