-- ==== Sys2Proof/Laws/PerInstr.lean ====
section
/-! SUPPORT. A statement about every instruction, made constructor by constructor: its word lies in the
opcode map at its own row (spec/30_encoding.md R57, R59, R63). -/

namespace Sys2Proof.Laws.EncodesItsRow

/-- The word of an instruction is one that the instruction's row selects. -/
def Statement (i : Instr) : Prop := i.row.selects (encode i) = true

theorem vmaddfp (vd va vc vb : VReg) : Statement (.vmaddfp vd va vc vb) := by
  simp only [Statement, Instr.row, OpcodeRow.selects, encode, beq_iff_eq]
  apply BitVec.eq_of_getLsbD_eq
  intro k hk
  simp only [encodeVA, rowVmaddfp, low5, BitVec.getLsbD_and, BitVec.getLsbD_append,
    BitVec.getLsbD_extractLsb']
  interval_cases k <;> simp

theorem vmaddfp128 (vd va vb : VReg) : Statement (.vmaddfp128 vd va vb) := by
  simp only [Statement, Instr.row, OpcodeRow.selects, encode, beq_iff_eq]
  apply BitVec.eq_of_getLsbD_eq
  intro k hk
  simp only [encodeVX128, rowVmaddfp128, BitVec.getLsbD_and, BitVec.getLsbD_append]
  interval_cases k <;> simp

end Sys2Proof.Laws.EncodesItsRow
end

