-- ==== Sys2Proof/Laws/Step.lean ====
section
/-! SUPPORT. What the fetch, an instruction and a step can do, said once. -/

namespace Sys2Proof.Machine

/-- What an instruction does, whichever it is: the shared operation, on the registers it names. -/
theorem exec_eq (i : Instr) (s : State) :
    exec i s = .next (match i with
      | .vmaddfp vd va vc vb => s.maddInto vd va vc vb
      | .vmaddfp128 vd va vb => s.maddInto vd va vd vb) := by
  cases i <;> rfl

/-- The register an instruction writes (R25). -/
def destination : Instr → VReg
  | .vmaddfp vd _ _ _ => vd
  | .vmaddfp128 vd _ _ => vd

/-- Everything an instruction can do: it goes on, by the shared operation into its destination. -/
theorem exec_next {i : Instr} {s t : State} (h : exec i s = .next t) :
    ∃ a c b, t = s.maddInto (destination i) a c b := by
  rw [exec_eq] at h
  cases i with
  | vmaddfp vd va vc vb => exact ⟨va, vc, vb, by simpa [destination] using h.symm⟩
  | vmaddfp128 vd va vb => exact ⟨va, vd, vb, by simpa [destination] using h.symm⟩

/-- The four ways a fetch can end (R42, R43, R145). -/
theorem fetch_cases (s : State) :
    (s.pc % 4 ≠ 0 ∧ s.fetch = .refused (.misalignedPc s.pc)) ∨
    (s.pc % 4 = 0 ∧ s.inRegion = true ∧ s.fetch = s.mem.readWord s.pc) ∨
    (s.pc % 4 = 0 ∧ s.inRegion = false ∧ s.pc = s.endPc ∧ s.fetch = .refused .runEnded) ∨
    (s.pc % 4 = 0 ∧ s.inRegion = false ∧ s.pc ≠ s.endPc ∧
      s.fetch = .refused (.pcOutsideProgram s.pc)) := by
  unfold State.fetch
  by_cases h : s.pc % 4 = 0 <;> by_cases hr : s.inRegion = true <;> by_cases he : s.pc = s.endPc <;>
    simp_all

/-- Everything a step that goes on has done: the premise held, a word was fetched and decoded, and its
instruction was executed (R146). -/
theorem step_next {s t : State} (h : step s = .next t) :
    s.vmxEnabled = true ∧ ∃ I i, s.fetch = .next I ∧ decodeWord I = .ok i ∧ exec i s = .next t := by
  unfold step at h
  split at h
  · rename_i hv
    refine ⟨hv, ?_⟩
    split at h
    · rename_i I hf
      split at h
      · rename_i i hd
        exact ⟨I, i, hf, hd, h⟩
      · cases h
    · cases h
    · cases h
  · cases h

/-- A step that goes on is the shared operation into some register. -/
theorem step_next_maddInto {s t : State} (h : step s = .next t) :
    ∃ vd a c b, t = s.maddInto vd a c b := by
  obtain ⟨_, _, i, _, _, hx⟩ := step_next h
  obtain ⟨a, c, b, ht⟩ := exec_next hx
  exact ⟨destination i, a, c, b, ht⟩

/-! ### Runs, for any machine -/

/-- A run whose first step goes on is the rest of the run from there. -/
theorem run_succ (M : Host.Core) (n : Nat) {s t : M.State} (h : M.step s = .next t) :
    M.run (n + 1) s = M.run n t := by
  simp only [Host.Core.run, h]

/-- One more step after a run that has gone on (so a run can be followed from its start). -/
theorem run_succ_last (M : Host.Core) (n : Nat) {s t : M.State} (h : M.run n s = .next t) :
    M.run (n + 1) s = M.step t := by
  induction n generalizing s with
  | zero =>
    simp only [Host.Core.run, Host.Outcome.next.injEq] at h
    subst h
    cases hx : M.step s <;> simp only [Host.Core.run, hx]
  | succ n ih =>
    cases hx : M.step s with
    | next u => rw [run_succ M _ hx] at h ⊢; exact ih h
    | fault f => simp [Host.Core.run, hx] at h
    | refused r => simp [Host.Core.run, hx] at h

end Sys2Proof.Machine
end

