-- ==== Sys2Proof/Tests/Slice0.lean ====
section
/-! SUPPORT. Tests, each with its source, and a witness for the hypotheses of each statement. Expected
results come from spec/95_test_vectors.md and from the rules, none from the model. -/

namespace Sys2Proof.Tests

open Sys2Proof Sys2Proof.Machine

/-! ### Helpers -/

/-- A machine with a 32-bit `pc`, registers of zeros and no program. -/
def blankState : State where
  vr := Vector.replicate 128 0#128
  pc := 0
  vscr := 2 ^ 16
  cr := 0
  xer := ⟨false, false, false, 0⟩
  gpr := []
  fpr := []
  privMode := 0
  intMask := 0
  vmxEnabled := true
  mem := []
  region := ⟨0, 0⟩
  cfg := ⟨32, 32, 16, 0⟩
  draws := 0

/-- That machine with some registers and a program at `0x1000`. -/
def machine (regs : List (VReg × Vec)) (ws : List Word) : State :=
  (regs.foldl (fun s r => s.setV r.1 r.2) blankState).loadProgram 0x1000 ws

/-- A register with the same content in each lane. -/
def splat (w : Lane) : Vec := lanes w w w w

/-- What a step leaves in a register and in `pc`. -/
def after (o : Host.Outcome State Fault Refusal) (n : VReg) : Option (Vec × Nat) :=
  match o with
  | .next t => some (t.v n, t.pc)
  | _ => none

/-- Why a step is refused. -/
def refusal (o : Host.Outcome State Fault Refusal) : Option Refusal :=
  match o with
  | .refused r => some r
  | _ => none

/-- Each word decodes to the instruction beside it, which encodes to the word. -/
def wordRows (rows : List (Word × Instr)) : Bool :=
  rows.all fun r => (decodeWord r.1).toOption == some r.2 && encode r.2 == r.1

/-- Each word is refused, by name. -/
def refusedWords (ws : List Word) : Bool :=
  ws.all fun w => match decodeWord w with
    | .error e => e == .notInScope w
    | .ok _ => false

/-- Each row is `a`, `c`, `b` and the lane result, `none` where the rules say "a NaN": there the result must
be the draw, here `0x7FC12345`. -/
def laneRows (rows : List (Lane × Lane × Lane × Option Lane)) : Bool :=
  rows.all fun r => maddLane 0x7FC12345#32 r.1 r.2.1 r.2.2.1 == r.2.2.2.getD 0x7FC12345#32

/-! ### Well-formedness: one ill-formed term for each check (R33, R56) -/

theorem test_wf_refuses_vd_32 : (Instr.vmaddfp 32 0 0 0).wf = false := by decide
theorem test_wf_refuses_va_32 : (Instr.vmaddfp 0 32 0 0).wf = false := by decide
theorem test_wf_refuses_vc_32 : (Instr.vmaddfp 0 0 32 0).wf = false := by decide
theorem test_wf_refuses_vb_127 : (Instr.vmaddfp 0 0 0 127).wf = false := by decide
theorem test_wf_takes_high_registers : (Instr.vmaddfp128 127 64 32).wf = true := by decide

/-! ### Encodings -/

/-- Table 2.1 of spec/95_test_vectors.md: the words are written there bit by bit. -/
theorem test_words_vmaddfp : wordRows [
    (0x1000002E, .vmaddfp 0 0 0 0),
    (0x106318EE, .vmaddfp 3 3 3 3),
    (0x102220EE, .vmaddfp 1 2 3 4),
    (0x13FFFFEE, .vmaddfp 31 31 31 31),
    (0x13E0002E, .vmaddfp 31 0 0 0),
    (0x101F002E, .vmaddfp 0 31 0 0),
    (0x100007EE, .vmaddfp 0 0 31 0),
    (0x1000F82E, .vmaddfp 0 0 0 31),
    (0x106100AE, .vmaddfp 3 1 2 0),
    (0x1185626E, .vmaddfp 12 5 9 12),
    (0x1290886E, .vmaddfp 20 16 1 17)] = true := by decide +kernel

/-- Table 2.2 of spec/95_test_vectors.md, with the rows that set one field bit at a time. -/
theorem test_words_vmaddfp128 : wordRows [
    (0x140000D0, .vmaddfp128 0 0 0),
    (0x142218D0, .vmaddfp128 1 2 3),
    (0x17FFFCFF, .vmaddfp128 127 127 127),
    (0x140000FB, .vmaddfp128 64 32 96),
    (0x14800CDD, .vmaddfp128 100 64 33),
    (0x14BF04F3, .vmaddfp128 5 127 96),
    (0x15063CD6, .vmaddfp128 40 70 71),
    (0x152948D0, .vmaddfp128 9 9 9),
    (0x17E000D0, .vmaddfp128 31 0 0),
    (0x140000D4, .vmaddfp128 32 0 0),
    (0x140000D8, .vmaddfp128 64 0 0),
    (0x140000DC, .vmaddfp128 96 0 0),
    (0x141F00D0, .vmaddfp128 0 31 0),
    (0x140000F0, .vmaddfp128 0 32 0),
    (0x140004D0, .vmaddfp128 0 64 0),
    (0x140004F0, .vmaddfp128 0 96 0),
    (0x1400F8D0, .vmaddfp128 0 0 31),
    (0x140000D1, .vmaddfp128 0 0 32),
    (0x140000D2, .vmaddfp128 0 0 64),
    (0x140000D3, .vmaddfp128 0 0 96)] = true := by decide +kernel

/-- Table 2.3 of spec/95_test_vectors.md: the words that are refused. -/
theorem test_words_refused : refusedWords [
    0x1000002F, 0x1000002A, 0x100000D0, 0x140000C0, 0x140002D0, 0x17FFFEFF, 0x14000090,
    0x14000050, 0x14000110, 0x140001D0, 0x180000D0, 0x00000000, 0xFFFFFFFF, 0x60000000] = true := by decide +kernel

/-- R57, bit by bit: `000100 00011 00001 00000 00010 101110` is `vmaddfp v3, v1, v2, v0`. -/
theorem test_bits_vmaddfp :
    decodeWord (0b000100#6 ++ 0b00011#5 ++ 0b00001#5 ++ 0b00000#5 ++ 0b00010#5 ++ 0b101110#6)
      = .ok (.vmaddfp 3 1 2 0) := by decide

/-- R60, bit by bit: `000101 00100 00000 00001 1 0 011 0 1 11 01` is `vmaddfp128 v100, v64, v33, v100`. -/
theorem test_bits_vmaddfp128 :
    decodeWord (0b000101#6 ++ 0b00100#5 ++ 0b00000#5 ++ 0b00001#5 ++ 0b1#1 ++ 0b0#1 ++ 0b011#3 ++ 0b0#1
      ++ 0b1#1 ++ 0b11#2 ++ 0b01#2) = .ok (.vmaddfp128 100 64 33) := by decide

/-- R41: the byte image of program P1 of spec/95_test_vectors.md section 5. -/
theorem test_byte_image :
    bytesOfWord 0x106100AE#32 ++ bytesOfWord 0x106318EE#32
      = [0x10, 0x61, 0x00, 0xAE, 0x10, 0x63, 0x18, 0xEE] := by decide

/-- The same from bytes, as the host's table word gives it; two bytes alone are no instruction (R55). -/
theorem test_table_word : decodeTableWord 32 0x106318EE = some (.vmaddfp 3 3 3 3) := by decide
theorem test_truncated : decode [0x10, 0x63] = .error .truncated := by decide

/-- R69: the source's example as it is printed. -/
theorem test_print : (toAsm (.vmaddfp 3 3 3 3)).render = "vmaddfp v3, v3, v3, v3" := by decide

/-- R69: the third written operand is `VC`, the fourth `VB` (table 2.1). -/
theorem test_operand_order :
    (assemble ⟨"vmaddfp", [0, 0, 31, 0]⟩).map encode = some 0x100007EE#32 := by decide

/-- R70: a fourth operand that is not the first has nothing to encode it in. -/
theorem test_fourth_operand : assemble ⟨"vmaddfp128", [1, 2, 3, 4]⟩ = none := by decide

/-! ### Lane arithmetic -/

/-- Section 3.1 of spec/95_test_vectors.md: V1, V34, V35, V33, V42, V2, V36, V3, V4, V47, V48. -/
theorem test_lanes_ordinary_and_rounding : laneRows [
    (0x40000000, 0x40400000, 0x3F800000, some 0x40E00000),
    (0x40400000, 0x40400000, 0x40400000, some 0x41400000),
    (0x3FC00000, 0xC0200000, 0x3E800000, some 0xC0600000),
    (0x00000000, 0x00000000, 0xC2F60000, some 0xC2F60000),
    (0x3F800000, 0x3F800000, 0x80000000, some 0x3F800000),
    (0x3F800001, 0x3F800001, 0xBF800002, some 0x28800000),
    (0x3DCCCCCD, 0x41200000, 0xBF800000, some 0x32800000),
    (0x3F800000, 0x3F800000, 0x33800000, some 0x3F800000),
    (0x3F800001, 0x3F800000, 0x33800000, some 0x3F800002),
    (0x3F800000, 0x3F800000, 0x33800001, some 0x3F800001),
    (0x3F800000, 0x3F800000, 0x337FFFFF, some 0x3F800000)] = true := by decide +kernel

/-- Section 3.2 of spec/95_test_vectors.md: V5, V5b, V5c, V6, V6b, V7, V8, V9, V9b, V10, V41. -/
theorem test_lanes_nan_and_infinity : laneRows [
    (0x7FC00000, 0x3F800000, 0x3F800000, none),
    (0x3F800000, 0x3F800000, 0x7F800001, none),
    (0x3F800000, 0xFFC12345, 0x3F800000, none),
    (0x7F800000, 0x00000000, 0x3F800000, none),
    (0x80000000, 0xFF800000, 0x3F800000, none),
    (0x7F800000, 0x3F800000, 0xFF800000, none),
    (0x7F800000, 0x3F800000, 0x7F800000, some 0x7F800000),
    (0xFF800000, 0x40000000, 0x3F800000, some 0xFF800000),
    (0xFF800000, 0xC0000000, 0x3F800000, some 0x7F800000),
    (0x3F800000, 0x3F800000, 0xFF800000, some 0xFF800000),
    (0x7F7FFFFF, 0x40000000, 0xFF800000, some 0xFF800000)] = true := by decide +kernel

/-- Section 3.3 of spec/95_test_vectors.md: V11, V12, V44, V13, V14, V15, V43. -/
theorem test_lanes_denormal_inputs : laneRows [
    (0x00000001, 0x7F000000, 0x00000000, some 0x00000000),
    (0x807FFFFF, 0x7F800000, 0x3F800000, none),
    (0x7F800000, 0x00000001, 0x00000000, none),
    (0x3F800000, 0x3F800000, 0x007FFFFF, some 0x3F800000),
    (0x00000000, 0x3F800000, 0x80000001, some 0x00000000),
    (0x80000000, 0x3F800000, 0x80000001, some 0x80000000),
    (0x00400000, 0x3F800000, 0x80000000, some 0x00000000)] = true := by decide +kernel

/-- Section 3.4 of spec/95_test_vectors.md: V16, V17, V37, V38, V39, V40, V46, V32, V18, V19, V31. -/
theorem test_lanes_tiny_results : laneRows [
    (0x0D800000, 0x2B800000, 0x00000000, some 0x00000000),
    (0x8D800000, 0x2B800000, 0x00000000, some 0x80000000),
    (0x00800000, 0x3F000000, 0x00000000, some 0x00000000),
    (0x1A000000, 0x1A000000, 0x00000000, some 0x00000000),
    (0x9A000000, 0x1A000000, 0x00000000, some 0x80000000),
    (0x1A000000, 0x1A000000, 0x00800000, some 0x00800000),
    (0x00800001, 0x3F800000, 0x80800000, some 0x00000000),
    (0x00800000, 0x3F800001, 0x80800000, some 0x00000000),
    (0x3F7FFFFF, 0x00800000, 0x00000000, some 0x00800000),
    (0x3F7FFFFE, 0x00800000, 0x00000000, some 0x00000000),
    (0x00800000, 0x3F800000, 0x00000000, some 0x00800000)] = true := by decide +kernel

/-- Section 3.5 of spec/95_test_vectors.md: V20, V20b, V21, V22, V23, V24, V25. -/
theorem test_lanes_zero_signs : laneRows [
    (0x3F800000, 0x3F800000, 0xBF800000, some 0x00000000),
    (0xBF800000, 0x3F800000, 0x3F800000, some 0x00000000),
    (0x80000000, 0x3F800000, 0x00000000, some 0x00000000),
    (0x80000000, 0x3F800000, 0x80000000, some 0x80000000),
    (0x00000000, 0xBF800000, 0x80000000, some 0x80000000),
    (0x00000000, 0x3F800000, 0x80000000, some 0x00000000),
    (0xBF800000, 0x00000000, 0x00000000, some 0x00000000)] = true := by decide +kernel

/-- Section 3.6 of spec/95_test_vectors.md: V26, V29, V27, V28, V30, V45. -/
theorem test_lanes_overflow : laneRows [
    (0x7F7FFFFF, 0x40000000, 0x00000000, some 0x7F800000),
    (0xFF7FFFFF, 0x40000000, 0x00000000, some 0xFF800000),
    (0x7F7FFFFF, 0x3F800000, 0x73000000, some 0x7F800000),
    (0x7F7FFFFF, 0x3F800000, 0x72FFFFFF, some 0x7F7FFFFF),
    (0x7F7FFFFF, 0x40000000, 0xFF7FFFFF, some 0x7F7FFFFF),
    (0x7F7FFFFF, 0x7F7FFFFF, 0xFF7FFFFF, some 0x7F800000)] = true := by decide +kernel

/-- R92: `2^-126 - 2^-150`, a tie, rounds up to the smallest normal (V18), read off the rule over the
rationals. -/
theorem test_round_over_rationals : round32Q (1 / 2 ^ 126 - 1 / 2 ^ 150) = 0x00800000#32 := by
  decide +kernel

/-! ### One step of each instruction -/

/-- Vector W1 of spec/95_test_vectors.md: 1.5*2+0, -2*4+0, 0.5*-8+0, 100*0.25+0. -/
theorem test_step_vmaddfp_W1 :
    after (step (machine [(1, 0x3FC00000C00000003F00000042C80000), (2, 0x4000000040800000C10000003E800000)]
      [0x106100AE])) 3 = some (0x40400000C1000000C080000041C80000, 0x1004) := by decide +kernel

/-- The machine of vector W4 of spec/95_test_vectors.md after `vmaddfp v4, v1, v2, v3`. -/
def afterW4 : State :=
  (machine [(1, 0x7FC000007F8000000000000140000000), (2, 0x3F800000000000007F00000040400000),
    (3, 0x3F8000003F8000003F8000003F800000)] []).maddInto 4 1 2 3

/-- Vector W4, lanes 2 and 3: the NaN lanes beside them do not disturb them (R81). -/
theorem test_vmaddfp_W4 :
    lane (afterW4.v 4) 2 = 0x3F800000#32 ∧ lane (afterW4.v 4) 3 = 0x40E00000#32 := by
  unfold afterW4
  rw [v_maddInto_self, lane_maddVec, lane_maddVec]
  decide +kernel

/-- Vector W6: `VA * VD_old + VB` (C1), high register numbers. -/
theorem test_step_vmaddfp128_W6 :
    after (step (machine [(64, 0x40000000404000004080000040A00000), (33, 0x3F8000003F8000003F8000003F800000),
      (100, 0x4120000041A0000041F0000042200000)] [0x14800CDD])) 100
      = some (0x41A800004274000042F2000043490000, 0x1004) := by decide +kernel

/-- Vector W7, where register numbers 5, 127 and 96 exercise all three split fields. -/
theorem test_step_vmaddfp128_W7 :
    after (step (machine [(127, 0xBF8000003F0000004000000000000000), (96, splat 0x3E800000),
      (5, splat 0x41000000)] [0x14BF04F3])) 5
      = some (0xC0F8000040880000418200003E800000, 0x1004) := by decide +kernel

/-- R24: `pc + 4` at the top of a 32-bit address space is 0. -/
theorem test_pc_wraps :
    after (step (blankState.loadProgram 0xFFFFFFFC [0x1000002E])) 0 = some (0, 0) := by decide +kernel

/-- R42, R43, R145, R68, R122: the five refusals. -/
theorem test_step_refusals :
    refusal (step (blankState.loadProgram 2 [0x1000002E])) = some (.misalignedPc 2) ∧
    refusal (step ({ machine [] [0x1000002E] with pc := 0x1008 })) = some (.pcOutsideProgram 0x1008) ∧
    refusal (step ({ machine [] [0x1000002E] with pc := 0x1004 })) = some .runEnded ∧
    refusal (step (machine [] [0x60000000])) = some (.notInScope 0x60000000) ∧
    refusal (step ({ machine [] [0x1000002E] with vmxEnabled := false })) = some .vmxDisabled := by
  decide +kernel

/-- The host's question: right after reset, the step runs the word that was placed. -/
theorem test_first_step_after_reset :
    (after (step (State.reset.withFetchWord 32 0x106318EE)) 3).isSome = true ∧
    (after (step (State.reset.withFetchWord 32 0x140000D0)) 0).isSome = true := by decide

/-- R45: byte 0 of a register's image is the most significant byte of lane 0. -/
theorem test_image : (vecImage 0x3FC00000C00000003F00000042C80000).toList.take 5 = [0x3F, 0xC0, 0, 0, 0xC0] := by
  decide

/-! ### Witnesses: for each statement with hypotheses, a state and operands that meet them, at the
boundaries of its clauses. The name is the statement's. -/

/-- A run of two words in the last 8 bytes of a 32-bit address space, every register but `v0` as it was. -/
def twoWords : State := blankState.loadProgram 0xFFFFFFF8 [0x1000002E, 0x17FFFCFF]

theorem twoWords_inv : twoWords.Inv := by constructor <;> decide +kernel

/-- The same at the start of the address space, the region reaching past the bytes that are loaded. -/
def shortText : State := { blankState.loadProgram 0 [0x1000002E] with region := ⟨0, 8⟩, pc := 4 }

theorem witness_VmaddfpOperandFields : decodeWord 0x13FFFFEE#32 = .ok (.vmaddfp 31 31 31 31) := by decide

theorem witness_Vmaddfp128OperandNumbers :
    decodeWord 0x17FFFCFF#32 = .ok (.vmaddfp128 127 127 127) := by decide

theorem witness_DecodeEncodeAgree :
    (Instr.vmaddfp 31 31 31 31).wf = true ∧ (Instr.vmaddfp128 127 127 127).wf = true ∧
    decodeWord 0x1000002E#32 = .ok (.vmaddfp 0 0 0 0) := by decide

theorem witness_ByteDecodeAgrees :
    (Instr.vmaddfp 31 0 0 0).wf = true ∧
    decode [0x14, 0x00, 0x00, 0xD0, 0x10] = .ok (.vmaddfp128 0 0 0, [0x10]) ∧
    ([0x14, 0x00, 0x00] : List Byte).length < 4 := by decide

theorem witness_DecodeIsTotalAndDisjoint :
    rowVmaddfp.selects 0x13FFFFEE#32 = true ∧ rowVmaddfp128.selects 0x17FFFCFF#32 = true ∧
    rowVmaddfp.selects 0x17FFFEFF#32 = false ∧ rowVmaddfp128.selects 0x17FFFEFF#32 = false := by decide

theorem witness_AssemblyRoundTrip :
    decodeWord 0x100007EE#32 = .ok (.vmaddfp 0 0 31 0) ∧
    decodeWord 0x140000FB#32 = .ok (.vmaddfp128 64 32 96) ∧
    (Instr.vmaddfp 31 31 31 31).wf = true ∧
    assemble ⟨"vmaddfp128", [127, 32, 96, 127]⟩ = some (.vmaddfp128 127 32 96) := by decide

theorem witness_FlushKeepsOnlyTheSign :
    classOf 0x80000001#32 = .denormal ∧ classOf 0x007FFFFF#32 = .denormal ∧
    classOf 0x00800000#32 ≠ .denormal ∧ classOf 0x80000000#32 ≠ .denormal := by decide +kernel

theorem witness_UnitsAreTheValues :
    isFinite 0x7F7FFFFF#32 = true ∧ isFinite 0x00000001#32 = true := by decide +kernel

theorem witness_NanInputGivesNan :
    classOf 0x7F800001#32 = .nan ∧ classOf 0xFFFFFFFF#32 = .nan := by decide +kernel

theorem witness_InfinityTimesZeroIsNan :
    classOf 0x7F800000#32 = .inf ∧ classOf 0x80000000#32 = .zero ∧ classOf 0x007FFFFF#32 = .denormal := by
  decide +kernel

/-- `a = +inf`, `c = 1`, `b = -inf` (vector V7). -/
theorem witness_InfinityMinusInfinityIsNan :
    classOf 0x7F800000#32 = .inf ∧ classOf (flush 0x7F800000#32) ≠ .zero ∧
    classOf (flush 0x3F800000#32) ≠ .zero ∧ classOf 0x7F800000#32 ≠ .nan ∧ classOf 0x3F800000#32 ≠ .nan ∧
    classOf 0xFF800000#32 = .inf ∧
    signBit 0xFF800000#32 ≠ (signBit 0x7F800000#32 ^^ signBit 0x3F800000#32) := by decide +kernel

/-- The same multiplicands with `b` finite and with `b = +inf`; and finite multiplicands, as large as they
come, with `b = -inf`. -/
theorem witness_InfinityArithmetic :
    classOf 0x7F800000#32 = .inf ∧ classOf (flush 0x7F800000#32) ≠ .zero ∧
    classOf (flush 0x3F800000#32) ≠ .zero ∧ classOf 0x3F800000#32 ≠ .nan ∧ isFinite 0x7F7FFFFF#32 = true ∧
    signBit 0x7F800000#32 = (signBit 0x7F800000#32 ^^ signBit 0x3F800000#32) ∧
    classOf 0xFF800000#32 = .inf := by decide +kernel

/-- `a = c = 1 + 2^-23`, `b = -(1 + 2^-22)` (vector V2). -/
theorem witness_FusedSumRoundedOnce :
    isFinite 0x3F800001#32 = true ∧ isFinite 0xBF800002#32 = true ∧
    sumQ 0x3F800001#32 0x3F800001#32 0xBF800002#32 ≠ 0 := by decide +kernel

/-- Just below the overflow threshold (vector V28). -/
theorem witness_RoundingIsNearestEven :
    isFinite 0x7F7FFFFF#32 = true ∧ isFinite 0x3F800000#32 = true ∧ isFinite 0x72FFFFFF#32 = true ∧
    sumQ 0x7F7FFFFF#32 0x3F800000#32 0x72FFFFFF#32 ≠ 0 ∧
    |sumQ 0x7F7FFFFF#32 0x3F800000#32 0x72FFFFFF#32| < 2 ^ 128 - 2 ^ 103 := by decide +kernel

/-- At the threshold on both sides (vector V27 and its negative), and just below it. -/
theorem witness_OverflowGivesInfinity :
    2 ^ 128 - 2 ^ 103 ≤ sumQ (flush 0x7F7FFFFF#32) (flush 0x3F800000#32) (flush 0x73000000#32) ∧
    sumQ (flush 0xFF7FFFFF#32) (flush 0x3F800000#32) (flush 0xF3000000#32) ≤ -(2 ^ 128 - 2 ^ 103) ∧
    |sumQ (flush 0x7F7FFFFF#32) (flush 0x3F800000#32) (flush 0x72FFFFFF#32)| < 2 ^ 128 - 2 ^ 103 := by
  decide +kernel

/-- Zero product with a zero addend (V24), with another addend (V33), and exact cancellation (V20). -/
theorem witness_ExactZeroSigns :
    classOf 0x00000000#32 = .zero ∧ classOf 0x80000000#32 = .zero ∧ classOf 0xC2F60000#32 = .normal ∧
    classOf 0x3F800000#32 = .normal ∧ classOf 0xBF800000#32 = .normal ∧
    sumQ 0x3F800000#32 0x3F800000#32 0xBF800000#32 = 0 := by decide +kernel

/-- Just under the edge (V19), on the edge (V18), and just under the smallest normal. -/
theorem witness_OutputFlushEdges :
    sumQ (flush 0x3F7FFFFE#32) (flush 0x00800000#32) (flush 0#32) ≠ 0 ∧
    |sumQ (flush 0x3F7FFFFE#32) (flush 0x00800000#32) (flush 0#32)| < 1 / 2 ^ 126 - 1 / 2 ^ 150 ∧
    1 / 2 ^ 126 - 1 / 2 ^ 150 ≤ |sumQ (flush 0x3F7FFFFF#32) (flush 0x00800000#32) (flush 0#32)| ∧
    |sumQ (flush 0x3F7FFFFF#32) (flush 0x00800000#32) (flush 0#32)| < 1 / 2 ^ 126 := by decide +kernel

/-- A result that is no NaN, whatever the draw is (vector V1), and one that is a draw (vector V6). -/
theorem witness_MaddLaneDenormalAndSymmetryLaws :
    maddLane (nanResult 0) 0x40000000#32 0x40400000#32 0x3F800000#32 = 0x40E00000#32 ∧
    classOf 0x40E00000#32 ≠ .nan ∧
    classOf (maddLane (nanResult 0) 0x7F800000#32 0#32 0x3F800000#32) = .nan := by
  have drawn : maddLane (nanResult 0) 0x7F800000#32 0#32 0x3F800000#32 = flush (nanResult 0) := by rfl
  exact ⟨by decide +kernel, by decide +kernel, by simp [drawn]⟩

/-- Clauses of the laws (4) to (7): `b` normal and `b = -0`, `a` no NaN, a non-zero sum (V1), an overflow
(V29). -/
theorem witness_MaddLaneUnitAndSignLaws :
    classOf 0x00800000#32 = .normal ∧ classOf 0x80000000#32 = .zero ∧ classOf 0xFF800000#32 ≠ .nan ∧
    classOf 0x40E00000#32 ≠ .nan ∧ classOf 0x40E00000#32 ≠ .zero ∧
    maddLane (nanResult 0) 0xFF7FFFFF#32 0x40000000#32 0#32 = 0xFF800000#32 ∧
    classOf 0xFF800000#32 = .inf := by decide +kernel

theorem witness_VmaddfpWordMeaning : 0x13FFFFEE#32 &&& 0xFC00003F#32 = 0x1000002E#32 := by decide

theorem witness_Vmaddfp128WordMeaning : 0x17FFFCFF#32 &&& 0xFC0003D0#32 = 0x140000D0#32 := by decide

theorem witness_VmaddfpAliasing :
    (machine [(3, 0x40400000C1000000C080000041C80000)] []).v 3
      = lanes 0x40400000#32 0xC1000000#32 0xC0800000#32 0x41C80000#32 := by decide +kernel

/-- Each instruction completes from the blank machine, so the frames are not about nothing. -/
theorem witness_FrameOfBothInstructions :
    (after (exec (.vmaddfp 31 0 0 0) blankState) 31).isSome = true ∧
    (after (exec (.vmaddfp128 127 0 0) blankState) 127).isSome = true := by decide

/-- Two states that agree in lane 0 of `v1`, `v2` and `v3` and in nothing much else, the count of draws
among it; both go on. -/
theorem witness_LanesAreIndependent :
    let s := machine [(1, splat 1), (2, splat 2), (3, splat 3)] []
    let s' := { machine [(1, lanes 1 7 8 9), (2, lanes 2 7 8 9), (3, lanes 3 7 8 9)] [] with
      vscr := 0, privMode := 5, draws := 9 }
    lane (s.v 1) 0 = lane (s'.v 1) 0 ∧ lane (s.v 2) 0 = lane (s'.v 2) 0 ∧
      lane (s.v 3) 0 = lane (s'.v 3) 0 ∧ lane (s.v 1) 1 ≠ lane (s'.v 1) 1 ∧ s.draws ≠ s'.draws ∧
      (after (exec (.vmaddfp 4 1 2 3) s) 4).isSome = true ∧
      (after (exec (.vmaddfp 4 1 2 3) s') 4).isSome = true ∧
      (after (exec (.vmaddfp128 2 1 3) s) 2).isSome = true ∧
      (after (exec (.vmaddfp128 2 1 3) s') 2).isSome = true := by
  decide +kernel

theorem witness_TheTwoInstructionsAgree : (Instr.vmaddfp 31 0 31 1).wf = true := by decide

theorem witness_AddendReadings :
    let s := machine [(5, splat 0x41000000), (96, splat 0x41000000)] []
    s.v 96 = s.v 5 := by decide +kernel

/-- An addend of `+0` and of `-0`; a product that is zero and one that is not. -/
theorem witness_MultiplyIdiom :
    (∀ j : Fin 4, lane (blankState.v 0) j = zeroLane false) ∧
    (∀ j : Fin 4, lane ((machine [(1, splat 0x80000000)] []).v 1) j = zeroLane true) ∧
    isFinite 0xBF800000#32 = true ∧ isFinite 0x00000000#32 = true ∧
    valQ (flush 0xBF800000#32) * valQ (flush 0x00000000#32) = 0 ∧
    valQ (flush 0xBF800000#32) * valQ (flush 0xBF800000#32) ≠ 0 := by decide +kernel

/-- The last word of the address space. -/
theorem witness_FetchIsBigEndian :
    let s := { twoWords with pc := 0xFFFFFFFC }
    s.pc % 4 = 0 ∧ s.inRegion = true ∧ s.mem.read s.pc = some 0x17 ∧ s.mem.read (s.pc + 1) = some 0xFF ∧
    s.mem.read (s.pc + 2) = some 0xFC ∧ s.mem.read (s.pc + 3) = some 0xFF := by decide +kernel

/-- The same word. -/
theorem witness_StepRunsTheDecodedInstruction :
    let s := { twoWords with pc := 0xFFFFFFFC }
    s.vmxEnabled = true ∧ s.pc % 4 = 0 ∧ s.inRegion = true ∧
    s.mem.read s.pc = some 0x17 ∧ s.mem.read (s.pc + 1) = some 0xFF ∧
    s.mem.read (s.pc + 2) = some 0xFC ∧ s.mem.read (s.pc + 3) = some 0xFF ∧
    decodeWord (wordOfBytes 0x17 0xFF 0xFC 0xFF) = .ok (.vmaddfp128 127 127 127) := by decide +kernel

/-- The premises of the five clauses, where they meet: the vector unit off; `pc` one past a word; `pc` just
past the region, where the region ends at the top of memory and `endPc` is 0; `pc` one word further; a
word that no row selects. -/
theorem witness_WhereAStepIsRefused :
    ({ twoWords with vmxEnabled := false }).vmxEnabled = false ∧
    ({ twoWords with pc := 0xFFFFFFF9 }).pc % 4 ≠ 0 ∧
    ({ twoWords with pc := 0 }).inRegion = false ∧ ({ twoWords with pc := 0 }).pc = twoWords.endPc ∧
    ({ twoWords with pc := 4 }).inRegion = false ∧ ({ twoWords with pc := 4 }).pc ≠ twoWords.endPc ∧
    (machine [] [0x17FFFEFF]).inRegion = true ∧
    (match (machine [] [0x17FFFEFF]).mem.readWord 0x1000 with
      | .next I => I == 0x17FFFEFF#32
      | _ => false) = true ∧
    rowVmaddfp.selects 0x17FFFEFF#32 = false ∧ rowVmaddfp128.selects 0x17FFFEFF#32 = false := by
  decide +kernel

/-- A region whose second word was never loaded. -/
theorem witness_OnlyAnUnloadedByteFaults :
    (match step shortText with
      | .fault f => f == .unloadedByte 4
      | _ => false) = true ∧
    shortText.vmxEnabled = true ∧ shortText.pc % 4 = 0 ∧ shortText.inRegion = true ∧
    shortText.mem.read 4 = none := by decide +kernel

theorem witness_StepKeepsTheInvariant :
    twoWords.Inv ∧ (after (step twoWords) 0).isSome = true := ⟨twoWords_inv, by decide +kernel⟩

theorem witness_WhatAStepCanChange : (after (step twoWords) 0).map (·.2) = some 0xFFFFFFFC := by
  decide +kernel

/-- The run of two words: it starts at its base, and both are in scope. -/
theorem witness_StraightLineRunReachesItsEnd :
    twoWords.Inv ∧ twoWords.vmxEnabled = true ∧ twoWords.pc = twoWords.region.base ∧
      twoWords.ProgramInScope := by
  refine ⟨twoWords_inv, rfl, rfl, fun k hk => ?_⟩
  have hk' : k = 0 ∨ k = 1 := by
    have : 4 * k < 8 := hk
    omega
  rcases hk' with rfl | rfl
  · exact ⟨0x1000002E#32, .vmaddfp 0 0 0 0, by rfl, by decide⟩
  · exact ⟨0x17FFFCFF#32, .vmaddfp128 127 127 127, by rfl, by decide⟩

theorem witness_BackToBackInstructions :
    twoWords.Inv ∧ twoWords.vmxEnabled = true ∧ twoWords.inRegion = true ∧
    twoWords.pc + 8 ≤ twoWords.region.base + twoWords.region.len ∧
    twoWords.pc + 8 ≤ 2 ^ twoWords.cfg.pcw ∧
    twoWords.mem.readWord twoWords.pc = .next 0x1000002E#32 ∧
    twoWords.mem.readWord (twoWords.pc + 4) = .next 0x17FFFCFF#32 ∧
    decodeWord 0x1000002E#32 = .ok (.vmaddfp 0 0 0 0) ∧
    decodeWord 0x17FFFCFF#32 = .ok (.vmaddfp128 127 127 127) ∧
    (after (exec (.vmaddfp 0 0 0 0) twoWords) 0).isSome = true :=
  ⟨twoWords_inv, rfl, by decide +kernel, by decide +kernel, by decide +kernel, by rfl, by rfl,
    by decide, by decide, by decide⟩

theorem witness_LoadedProgramReadsBack :
    ([0x1000002E#32, 0x17FFFCFF#32] : List Word)[1]? = some 0x17FFFCFF#32 ∧
    ((0xFFF < 0x1000) ∨ 0x1000 + 4 * 2 ≤ 0xFFF) ∧ ((0x1008 < 0x1000) ∨ 0x1000 + 4 * 2 ≤ 0x1008) := by
  decide

theorem witness_PlacedWordIsTheNextToRun :
    twoWords.Inv ∧ twoWords.vmxEnabled = true ∧ 0x17FFFCFF < 2 ^ 32 ∧
    decodeTableWord 32 0x17FFFCFF = some (.vmaddfp128 127 127 127) :=
  ⟨twoWords_inv, rfl, by decide, by decide⟩

end Sys2Proof.Tests
end

section
/-! The frame of an instruction, whichever it is (spec/10_state.md R29). -/

namespace Sys2Proof.Machine

/-- The shared operation touches only its register, `pc` and the count of draws. -/
theorem kept_maddInto (s : State) (vd a c b : VReg) : s.Kept (s.maddInto vd a c b) where
  vscr := maddInto_vscr ..
  cr := maddInto_cr ..
  xer := maddInto_xer ..
  gpr n := by simp [State.gprAt]
  fpr n := by simp [State.fprAt]
  privMode := maddInto_privMode ..
  intMask := maddInto_intMask ..
  vmxEnabled := maddInto_vmxEnabled ..
  mem addr := by simp
  region := maddInto_region ..
  cfg := maddInto_cfg ..

/-- An instruction changes no vector register but its destination, and keeps the rest of the state. -/
theorem exec_frame {i : Instr} {s t : State} (h : exec i s = .next t) :
    (∀ n, n ≠ destination i → t.v n = s.v n) ∧ s.Kept t := by
  obtain ⟨a, c, b, rfl⟩ := exec_next h
  exact ⟨fun n hn => v_maddInto_ne s _ a c b n hn, kept_maddInto s _ a c b⟩

/-- Settles O33: both forms are `exec_frame`, whose destination is `VRT` in the one and `VD128` in the
other. -/
theorem frameOfBothInstructions : Obligations.FrameOfBothInstructions :=
  ⟨fun _ _ _ _ _ _ h => exec_frame h, fun _ _ _ _ _ h => exec_frame h⟩

end Sys2Proof.Machine
end

section
/-! The selection, the operand fields and the word of `vmaddfp` (spec/30_encoding.md R57, R62). -/

namespace Sys2Proof.Machine

/-! ### Bit strings put together -/

/-- Strings cut at the same place are equal when both their parts are. -/
theorem append_eq_append_iff {m n : Nat} (x x' : BitVec m) (y y' : BitVec n) :
    x ++ y = x' ++ y' ↔ x = x' ∧ y = y' where
  mp h := ⟨by simpa [BitVec.extractLsb'_append_eq_left] using congrArg (BitVec.extractLsb' n m) h,
    by simpa [BitVec.extractLsb'_append_eq_right] using congrArg (BitVec.extractLsb' 0 n) h⟩
  mpr h := by rw [h.1, h.2]

/-- The number of a string, as the sum of its parts with the upper one scaled. -/
theorem toNat_append_eq_add {m n : Nat} (x : BitVec m) (y : BitVec n) :
    (x ++ y).toNat = x.toNat * 2 ^ n + y.toNat := by
  rw [BitVec.toNat_append, ← Nat.shiftLeft_add_eq_or_of_lt y.isLt, Nat.shiftLeft_eq]

/-! ### Register numbers in bits -/

/-- Up to seven bits are read as the number they stand for (R62). -/
theorem val_vregOfBits {n : Nat} (x : BitVec n) (hn : n ≤ 7) : (vregOfBits x).val = x.toNat :=
  Nat.mod_eq_of_lt (x.isLt.trans_le (Nat.pow_le_pow_right (by decide) hn))

/-- A 5-bit field is what is written back of the register number it is read as. -/
@[simp] theorem low5_vregOfBits (x : BitVec 5) : low5 (vregOfBits x) = x := by
  apply BitVec.eq_of_toNat_eq
  have hx : x.toNat < 32 := x.isLt
  simp [low5, vregBits, val_vregOfBits, hx]

/-! ### The row of `vmaddfp` -/

/-- The row selects by mask and match (R57). -/
theorem rowVmaddfp_selects_iff_mask (I : Word) :
    rowVmaddfp.selects I = true ↔ I &&& 0xFC00003F#32 = 0x1000002E#32 := by
  simp [OpcodeRow.selects, rowVmaddfp]

/-- The mask keeps the two opcode fields and clears the 20 operand bits between them. -/
theorem and_rowVmaddfp_mask (I : Word) :
    I &&& 0xFC00003F#32 = srcBits I 0 5 ++ 0#20 ++ srcBits I 26 31 := by
  apply BitVec.eq_of_getLsbD_eq
  intro k hk
  simp only [srcBits, BitVec.getLsbD_and, BitVec.getLsbD_append, BitVec.getLsbD_extractLsb']
  interval_cases k <;> simp

/-- The row selects by the two opcode fields (R57). -/
theorem rowVmaddfp_selects_iff_fields (I : Word) :
    rowVmaddfp.selects I = true ↔ (srcBits I 0 5).toNat = 4 ∧ (srcBits I 26 31).toNat = 46 := by
  have pattern : 0x1000002E#32 = 4#6 ++ 0#20 ++ 46#6 := by decide
  calc rowVmaddfp.selects I = true
    _ ↔ srcBits I 0 5 ++ 0#20 ++ srcBits I 26 31 = 4#6 ++ 0#20 ++ 46#6 := by
      rw [rowVmaddfp_selects_iff_mask, and_rowVmaddfp_mask, pattern]
    _ ↔ srcBits I 0 5 = 4#6 ∧ srcBits I 26 31 = 46#6 := by
      simp only [append_eq_append_iff, and_true]
    _ ↔ (srcBits I 0 5).toNat = 4 ∧ (srcBits I 26 31).toNat = 46 := by
      rw [← BitVec.toNat_inj, ← BitVec.toNat_inj]
      rfl

/-- A word decodes to a `vmaddfp` exactly when its row selects the word, and then to the operands of
form `VA`. -/
theorem decodeWord_eq_vmaddfp_iff (I : Word) (vd va vc vb : VReg) :
    decodeWord I = .ok (.vmaddfp vd va vc vb) ↔
      rowVmaddfp.selects I = true ∧ decodeVA I = .vmaddfp vd va vc vb := by
  unfold decodeWord
  split
  · simp [*]
  · split <;> simp [*, decodeVX128]

theorem exists_decodeWord_eq_vmaddfp_iff (I : Word) :
    (∃ vd va vc vb, decodeWord I = .ok (.vmaddfp vd va vc vb)) ↔ rowVmaddfp.selects I = true := by
  simp only [decodeWord_eq_vmaddfp_iff]
  exact ⟨fun ⟨_, _, _, _, hsel, _⟩ => hsel, fun hsel => ⟨_, _, _, _, hsel, rfl⟩⟩

/-! ### The word of `vmaddfp` -/

/-- The bit string of R57, over the four fields as they stand. -/
theorem encode_vmaddfp_vregOfBits (vd va vc vb : BitVec 5) :
    encode (.vmaddfp (vregOfBits vd) (vregOfBits va) (vregOfBits vc) (vregOfBits vb)) =
      0b000100#6 ++ vd ++ va ++ vb ++ vc ++ 0b101110#6 := by
  simp [encode, encodeVA]

/-- The bit string of R57 as a sum. -/
theorem toNat_vmaddfp_bits (vd va vc vb : BitVec 5) :
    (0b000100#6 ++ vd ++ va ++ vb ++ vc ++ 0b101110#6).toNat =
      0x1000002E + vd.toNat * 2 ^ 21 + va.toNat * 2 ^ 16 + vb.toNat * 2 ^ 11 + vc.toNat * 2 ^ 6 := by
  simp only [toNat_append_eq_add, BitVec.toNat_ofNat]
  omega

/-- Settles O2: the decoder asks the row of `vmaddfp`, which selects by fields and by mask alike; the
word is the bit string, and the bit string the sum. -/
theorem vmaddfpSelectionAndWord : Obligations.VmaddfpSelectionAndWord := by
  refine ⟨fun I => ⟨?byFields, ?byMask⟩, fun vd va vc vb => ?word⟩
  case byFields =>
    exact (exists_decodeWord_eq_vmaddfp_iff I).trans (rowVmaddfp_selects_iff_fields I)
  case byMask =>
    exact (exists_decodeWord_eq_vmaddfp_iff I).trans (rowVmaddfp_selects_iff_mask I)
  case word =>
    have bits := encode_vmaddfp_vregOfBits vd va vc vb
    exact ⟨(congrArg BitVec.toNat bits).trans (toNat_vmaddfp_bits vd va vc vb), bits⟩

/-- Settles O3: the operands are those of form `VA`, and a 5-bit field is read as its number. -/
theorem vmaddfpOperandFields : Obligations.VmaddfpOperandFields := by
  intro I vd va vc vb h
  obtain ⟨_, hops⟩ := (decodeWord_eq_vmaddfp_iff I vd va vc vb).mp h
  obtain ⟨rfl, rfl, rfl, rfl⟩ := Instr.vmaddfp.inj hops
  exact ⟨val_vregOfBits _ (by decide), val_vregOfBits _ (by decide), val_vregOfBits _ (by decide),
    val_vregOfBits _ (by decide)⟩

end Sys2Proof.Machine
end

section
/-! Which lanes are NaNs (spec/40_lane_numerics.md R87 to R89), and on what a lane depends (R81). -/

namespace Sys2Proof.Machine

/-! ### The flush, by class and sign -/

@[simp] theorem classOf_zeroLane (s : Bool) : classOf (zeroLane s) = .zero := by
  cases s <;> decide

@[simp] theorem signBit_zeroLane (s : Bool) : signBit (zeroLane s) = s := by
  cases s <;> decide

theorem flush_of_denormal {w : Lane} (h : classOf w = .denormal) : flush w = zeroLane (signBit w) :=
  if_pos h

theorem flush_of_ne_denormal {w : Lane} (h : classOf w ≠ .denormal) : flush w = w :=
  if_neg h

theorem classOf_flush_of_inf {w : Lane} (h : classOf w = .inf) : classOf (flush w) = .inf := by
  rw [flush_of_ne_denormal (by simp [h]), h]

theorem classOf_flush_of_nan {w : Lane} (h : classOf w = .nan) : classOf (flush w) = .nan := by
  rw [flush_of_ne_denormal (by simp [h]), h]

/-- A zero and a denormal are both read as a zero (R84). -/
theorem classOf_flush_eq_zero {w : Lane} (h : classOf w = .zero ∨ classOf w = .denormal) :
    classOf (flush w) = .zero := by
  rcases h with hz | hd
  · rw [flush_of_ne_denormal (by simp [hz]), hz]
  · rw [flush_of_denormal hd, classOf_zeroLane]

/-- The flush keeps the sign of whatever it is given (R84). -/
@[simp] theorem signBit_flush (w : Lane) : signBit (flush w) = signBit w := by
  by_cases h : classOf w = .denormal
  · rw [flush_of_denormal h, signBit_zeroLane]
  · rw [flush_of_ne_denormal h]

/-! ### The invalid operands -/

/-- The operands for which R86 to R89 answer "a NaN": a NaN among the inputs, an infinity times a zero, and
an infinite product with the opposite infinity for an addend. -/
inductive InvalidOperands (a c b : Lane) : Prop where
  | nan (h : classOf a = .nan ∨ classOf c = .nan ∨ classOf b = .nan)
  | infTimesZero (h : classOf a = .inf ∧ classOf c = .zero ∨ classOf a = .zero ∧ classOf c = .inf)
  | infMinusInf (hp : classOf a = .inf ∨ classOf c = .inf) (hb : classOf b = .inf)
      (hs : signBit b ≠ (signBit a ^^ signBit c))

/-- Invalid operands give the NaN that was drawn, in whichever of R86's cases they come first. -/
theorem fma32_of_invalid (nan : Lane) {a c b : Lane} (h : InvalidOperands a c b) : fma32 nan a c b = nan := by
  unfold fma32
  dsimp only
  cases h with
  | nan h => exact if_pos h
  | infTimesZero h => rw [if_pos h, ite_self]
  | infMinusInf hp hb hs => rw [if_pos hp, if_pos (And.intro hb hs), ite_self, ite_self]

/-- Operands that are not invalid reach none of the cases that answer the draw. -/
theorem fma32_eq_of_not_invalid (nan nan' : Lane) {a c b : Lane} (h : ¬ InvalidOperands a c b) :
    fma32 nan a c b = fma32 nan' a c b := by
  have hnan := fun x => h (.nan x)
  have hzero := fun x => h (.infTimesZero x)
  unfold fma32
  dsimp only
  rw [if_neg hnan, if_neg hnan, if_neg hzero, if_neg hzero]
  by_cases hp : classOf a = .inf ∨ classOf c = .inf
  · have hsub := fun x : _ ∧ _ => h (.infMinusInf hp x.1 x.2)
    rw [if_pos hp, if_pos hp, if_neg hsub, if_neg hsub]
  · rw [if_neg hp, if_neg hp]

/-! ### What a lane is with a draw for its NaN -/

/-- Inputs that are invalid once flushed give the draw, which the output flush keeps (R85, R96). -/
theorem maddLane_nanResult_of_invalid (k : Nat) {a c b : Lane}
    (h : InvalidOperands (flush a) (flush c) (flush b)) : maddLane (nanResult k) a c b = nanResult k := by
  rw [maddLane, fma32_of_invalid _ h, flush_nanResult]

theorem classOf_maddLane_of_invalid (k : Nat) {a c b : Lane}
    (h : InvalidOperands (flush a) (flush c) (flush b)) :
    classOf (maddLane (nanResult k) a c b) = .nan := by
  rw [maddLane_nanResult_of_invalid k h, classOf_nanResult]

/-- Two draws make no difference to a lane, or the lane is a NaN with either (R96). -/
theorem maddLane_nanResult_eq_or_nan (k k' : Nat) (a c b : Lane) :
    maddLane (nanResult k) a c b = maddLane (nanResult k') a c b ∨
      classOf (maddLane (nanResult k) a c b) = .nan ∧
        classOf (maddLane (nanResult k') a c b) = .nan := by
  by_cases h : InvalidOperands (flush a) (flush c) (flush b)
  · exact .inr ⟨classOf_maddLane_of_invalid k h, classOf_maddLane_of_invalid k' h⟩
  · exact .inl (congrArg flush (fma32_eq_of_not_invalid _ _ h))

/-- Settles O15: the flush keeps a NaN, and a NaN among the flushed inputs is invalid. -/
theorem nanInputGivesNan : Obligations.NanInputGivesNan := by
  intro k a c b h
  exact classOf_maddLane_of_invalid k
    (.nan (h.imp classOf_flush_of_nan (.imp classOf_flush_of_nan classOf_flush_of_nan)))

/-- Settles O16: the flush keeps an infinity and makes a zero of a zero or a denormal, and the product of
the two is invalid. -/
theorem infinityTimesZeroIsNan : Obligations.InfinityTimesZeroIsNan := by
  intro k a c b h
  apply classOf_maddLane_of_invalid k
  rcases h with ⟨ha, hc⟩ | ⟨ha, hc⟩
  · exact .infTimesZero (.inl ⟨classOf_flush_of_inf ha, classOf_flush_eq_zero hc⟩)
  · exact .infTimesZero (.inr ⟨classOf_flush_eq_zero ha, classOf_flush_of_inf hc⟩)

/-- Settles O17: the flush keeps infinities and signs, so the flushed inputs are again an infinite product
and the opposite infinity. Where the other multiplicand is a zero or a NaN the lane is a NaN as well, by
an earlier case of R86, so the premises that exclude these go unused. -/
theorem infinityMinusInfinityIsNan : Obligations.InfinityMinusInfinityIsNan := by
  intro k a c b hp _ _ _ _ hb hs
  exact classOf_maddLane_of_invalid k
    (.infMinusInf (hp.imp classOf_flush_of_inf classOf_flush_of_inf) (classOf_flush_of_inf hb)
      (by simpa using hs))

/-! ### A lane of the destination -/

theorem eq_maddInto_of_exec_vmaddfp {vd va vc vb : VReg} {s t : State}
    (h : exec (.vmaddfp vd va vc vb) s = .next t) : t = s.maddInto vd va vc vb := by
  simpa [exec_eq] using h.symm

theorem eq_maddInto_of_exec_vmaddfp128 {vd va vb : VReg} {s t : State}
    (h : exec (.vmaddfp128 vd va vb) s = .next t) : t = s.maddInto vd va vd vb := by
  simpa [exec_eq] using h.symm

/-- The shared operation reads of the three sources the lane it writes, and else only its draw (R81). -/
theorem lane_maddInto_eq_or_nan (vd a c b : VReg) (j : Fin 4) {s s' : State}
    (ha : lane (s.v a) j = lane (s'.v a) j) (hc : lane (s.v c) j = lane (s'.v c) j)
    (hb : lane (s.v b) j = lane (s'.v b) j) :
    lane ((s.maddInto vd a c b).v vd) j = lane ((s'.maddInto vd a c b).v vd) j ∨
      classOf (lane ((s.maddInto vd a c b).v vd) j) = .nan ∧
        classOf (lane ((s'.maddInto vd a c b).v vd) j) = .nan := by
  simp only [v_maddInto_self, lane_maddVec, ha, hc, hb]
  exact maddLane_nanResult_eq_or_nan _ _ _ _ _

/-- Settles O34: both instructions are the shared operation, `vmaddfp128` with its destination for the
second multiplicand. -/
theorem lanesAreIndependent : Obligations.LanesAreIndependent := by
  refine ⟨fun vd va vc vb j s s' t t' ha hc hb h h' => ?vmaddfp,
    fun vd va vb j s s' t t' ha hd hb h h' => ?vmaddfp128⟩
  case vmaddfp =>
    obtain rfl := eq_maddInto_of_exec_vmaddfp h
    obtain rfl := eq_maddInto_of_exec_vmaddfp h'
    exact lane_maddInto_eq_or_nan vd va vc vb j ha hc hb
  case vmaddfp128 =>
    obtain rfl := eq_maddInto_of_exec_vmaddfp128 h
    obtain rfl := eq_maddInto_of_exec_vmaddfp128 h'
    exact lane_maddInto_eq_or_nan vd va vd vb j ha hd hb

end Sys2Proof.Machine
end

section
/-! What `vmaddfp` does in any state (spec/41_vmaddfp.md R110, R111, R113). -/

namespace Sys2Proof.Machine

/-- Whichever of the four registers are one, each lane of the destination is a result that `madd_lane` may
have on the old lanes (R85, R111, R115). -/
theorem maddResult_lane_maddInto (s : State) (vd a c b : VReg) (j : Fin 4) :
    MaddResult (lane (s.v a) j) (lane (s.v c) j) (lane (s.v b) j)
      (lane ((s.maddInto vd a c b).v vd) j) := by
  rw [v_maddInto_self, lane_maddVec]
  exact maddResult_nanResult _ _ _ _

theorem exec_vmaddfp_eq (vd va vc vb : VReg) (s : State) :
    exec (.vmaddfp vd va vc vb) s = .next (s.maddInto vd va vc vb) :=
  exec_eq _ s

/-- Settles O28: the instruction is the shared operation, whose lanes, `pc` and frame are known. -/
theorem vmaddfpCompletes : Obligations.VmaddfpCompletes := fun vd va vc vb s =>
  ⟨s.maddInto vd va vc vb, exec_vmaddfp_eq vd va vc vb s, maddResult_lane_maddInto s vd va vc vb,
    maddInto_pc s vd va vc vb, v_maddInto_ne s vd va vc vb,
    kept_maddInto s vd va vc vb⟩

/-- Settles O27: the row selects the word, so it decodes to a `vmaddfp` whose operands are its fields, and
that instruction completes in every state. -/
theorem vmaddfpWordMeaning : Obligations.VmaddfpWordMeaning := by
  intro I s hmask
  have hsel := (rowVmaddfp_selects_iff_mask I).mpr hmask
  obtain ⟨vd, va, vc, vb, hdec⟩ := (exists_decodeWord_eq_vmaddfp_iff I).mpr hsel
  obtain ⟨hvd, hva, hvb, hvc⟩ := vmaddfpOperandFields I vd va vc vb hdec
  obtain ⟨t, hexec, hlanes, hpc, hother, hkept⟩ := vmaddfpCompletes vd va vc vb s
  exact ⟨.vmaddfp vd va vc vb, t, vd, va, vc, vb, hdec, hexec, hvd, hva, hvb, hvc, hlanes, hpc,
    hother, hkept⟩

/-! ### Normal operands, and the example of R111 -/

/-- Normal operands whose exact sum is not zero are not flushed and reach the rounding, whatever a NaN would
be (R86, R92). -/
theorem maddLane_of_normal (nan : Lane) {a c b : Lane} (ha : classOf a = .normal)
    (hc : classOf c = .normal) (hb : classOf b = .normal) (hsum : exactSum a c b ≠ 0) :
    maddLane nan a c b = flush (round32 (exactSum a c b)) := by
  have noFlush {w : Lane} (hw : classOf w = .normal) : flush w = w :=
    flush_of_ne_denormal (by simp [hw])
  rw [maddLane, noFlush ha, noFlush hc, noFlush hb]
  simp [fma32, ha, hc, hb, hsum]

/-- The four sums of registers given by their lanes. -/
theorem maddVec_lanesOf (draws : Nat) (A C B : Fin 4 → Lane) :
    maddVec draws (lanesOf A) (lanesOf C) (lanesOf B) =
      lanesOf fun i => maddLane (nanResult (draws + i.val)) (A i) (C i) (B i) := by
  simp only [maddVec, lane_lanesOf]

/-- The lanes 3, -8, -4 and 25 of R111's example. -/
def aliasingInput : Fin 4 → Lane := ![0x40400000#32, 0xC1000000#32, 0xC0800000#32, 0x41C80000#32]

/-- The lanes 12, 56, 12 and 650 of R111's example. -/
def aliasingOutput : Fin 4 → Lane := ![0x41400000#32, 0x42600000#32, 0x41400000#32, 0x44228000#32]

/-- Each lane of the example is `x*x + x`, with no NaN in it. -/
theorem maddLane_aliasingInput (nan : Lane) (i : Fin 4) :
    maddLane nan (aliasingInput i) (aliasingInput i) (aliasingInput i) = aliasingOutput i := by
  have normal : ∀ i, classOf (aliasingInput i) = .normal := by decide
  have nonzero : ∀ i, exactSum (aliasingInput i) (aliasingInput i) (aliasingInput i) ≠ 0 := by
    decide
  have rounded : ∀ i, flush (round32 (exactSum (aliasingInput i) (aliasingInput i)
      (aliasingInput i))) = aliasingOutput i := by decide +kernel
  rw [maddLane_of_normal nan (normal i) (normal i) (normal i) (nonzero i), rounded i]

/-- Settles O29: aliased operands are a case of all operands, and the example is lane by lane `x*x + x`. -/
theorem vmaddfpAliasing : Obligations.VmaddfpAliasing := by
  have lanes_old (vd va vc vb : VReg) (s : State) :
      ∃ t : State, exec (.vmaddfp vd va vc vb) s = .next t ∧ ∀ j : Fin 4,
        MaddResult (lane (s.v va) j) (lane (s.v vc) j) (lane (s.v vb) j) (lane (t.v vd) j) :=
    ⟨_, exec_vmaddfp_eq vd va vc vb s, maddResult_lane_maddInto s vd va vc vb⟩
  refine ⟨lanes_old, fun n => lanes_old n n n n, by decide, fun s hx =>
    ⟨s.maddInto 3 3 3 3, exec_vmaddfp_eq 3 3 3 3 s, ?_⟩⟩
  have hin : s.v 3 = lanesOf aliasingInput := hx
  calc (s.maddInto 3 3 3 3).v 3
    _ = maddVec s.draws (s.v 3) (s.v 3) (s.v 3) := v_maddInto_self s 3 3 3 3
    _ = lanesOf aliasingOutput := by
      simp only [hin, maddVec_lanesOf, maddLane_aliasingInput]

end Sys2Proof.Machine
end

section
/-! No instruction stops or leaves a trace (spec/60_exceptions.md R120, R121). -/

namespace Sys2Proof.Machine

/-- Every instruction completes, with any operands and in any state (R120). -/
theorem exists_exec_eq_next (i : Instr) (s : State) : ∃ t, exec i s = .next t :=
  ⟨_, exec_eq i s⟩

/-- Settles O35: every instruction completes, so it neither faults nor is refused, and its frame holds the
three status registers. -/
theorem noExceptionAndNoStickyBit : Obligations.NoExceptionAndNoStickyBit := by
  intro i s
  obtain ⟨t, hexec⟩ := exists_exec_eq_next i s
  obtain ⟨-, hkept⟩ := exec_frame hexec
  refine ⟨⟨t, hexec, hkept.vscr, hkept.xer, hkept.cr⟩, fun f => ?noFault, fun r => ?noRefusal⟩
  case noFault => simp [hexec]
  case noRefusal => simp [hexec]

end Sys2Proof.Machine
end

section
/-! Register numbers in bits, and words in fields (spec/30_encoding.md R55 to R61): a word is the string of
its fields, so an instruction's word is a given word exactly when they agree field by field. -/

namespace Sys2Proof.Machine

/-! ### Register numbers and their bits -/

theorem toNat_vregBits (n : VReg) : (vregBits n).toNat = n.val :=
  Nat.mod_eq_of_lt n.isLt

theorem toNat_low5 (n : VReg) : (low5 n).toNat = n.val % 32 := by
  simp [low5, toNat_vregBits]

theorem toNat_mid1 (n : VReg) : (mid1 n).toNat = n.val / 32 % 2 := by
  simp [mid1, toNat_vregBits, Nat.shiftRight_eq_div_pow]

theorem toNat_high1 (n : VReg) : (high1 n).toNat = n.val / 64 := by
  simp only [high1, BitVec.extractLsb'_toNat, toNat_vregBits, Nat.shiftRight_eq_div_pow]
  lia

theorem toNat_high2 (n : VReg) : (high2 n).toNat = n.val / 32 := by
  simp only [high2, BitVec.extractLsb'_toNat, toNat_vregBits, Nat.shiftRight_eq_div_pow]
  lia

@[simp] theorem vregBits_vregOfBits (x : BitVec 7) : vregBits (vregOfBits x) = x := by
  apply BitVec.eq_of_toNat_eq
  rw [toNat_vregBits, val_vregOfBits x le_rfl]

/-- A number below 32 is read back from its low five bits (R56). -/
theorem vregOfBits_low5 {n : VReg} (h : n.val < 32) : vregOfBits (low5 n) = n := by
  apply Fin.ext
  rw [val_vregOfBits _ (by decide), toNat_low5, Nat.mod_eq_of_lt h]

/-- Any number is read back from its high two and low five bits (R61). -/
theorem vregOfBits_high2_low5 (n : VReg) : vregOfBits (high2 n ++ low5 n) = n := by
  apply Fin.ext
  rw [val_vregOfBits _ (by decide), toNat_append_eq_add, toNat_high2, toNat_low5]
  lia

/-- Any number is read back from its high, its middle and its low five bits (R61). -/
theorem vregOfBits_high1_mid1_low5 (n : VReg) : vregOfBits (high1 n ++ mid1 n ++ low5 n) = n := by
  apply Fin.ext
  rw [val_vregOfBits _ (by decide)]
  simp only [toNat_append_eq_add, toNat_high1, toNat_mid1, toNat_low5]
  lia

theorem low5_vregOfBits_append (x : BitVec 2) (y : BitVec 5) : low5 (vregOfBits (x ++ y)) = y := by
  rw [low5, vregBits_vregOfBits, BitVec.extractLsb'_append_eq_right]

theorem high2_vregOfBits_append (x : BitVec 2) (y : BitVec 5) : high2 (vregOfBits (x ++ y)) = x := by
  rw [high2, vregBits_vregOfBits, BitVec.extractLsb'_append_eq_left]

theorem high1_append_mid1 (n : VReg) : high1 n ++ mid1 n = high2 n := by
  apply BitVec.eq_of_toNat_eq
  rw [toNat_append_eq_add, toNat_high1, toNat_mid1, toNat_high2]
  lia

/-! ### A word is the string of its fields -/

theorem eq_fieldsVA (I : Word) :
    I = srcBits I 0 5 ++ srcBits I 6 10 ++ srcBits I 11 15 ++ srcBits I 16 20 ++ srcBits I 21 25
      ++ srcBits I 26 31 := by
  simp only [srcBits, BitVec.extractLsb'_append_extractLsb'_eq_extractLsb']
  exact BitVec.extractLsb'_eq_self.symm

theorem eq_fieldsVX128 (I : Word) :
    I = srcBits I 0 5 ++ srcBits I 6 10 ++ srcBits I 11 15 ++ srcBits I 16 20 ++ srcBits I 21 21
      ++ srcBits I 22 22 ++ srcBits I 23 25 ++ srcBits I 26 26 ++ srcBits I 27 27 ++ srcBits I 28 29
      ++ srcBits I 30 31 := by
  simp only [srcBits, BitVec.extractLsb'_append_extractLsb'_eq_extractLsb']
  exact BitVec.extractLsb'_eq_self.symm

/-- The word has the opcode fields of `vmaddfp` and these registers in its operand fields (R57). -/
structure FieldsVA (I : Word) (vd va vc vb : VReg) : Prop where
  primary : 0b000100#6 = srcBits I 0 5
  extended : 0b101110#6 = srcBits I 26 31
  vd : low5 vd = srcBits I 6 10
  va : low5 va = srcBits I 11 15
  vc : low5 vc = srcBits I 21 25
  vb : low5 vb = srcBits I 16 20

theorem encodeVA_eq_iff (vd va vc vb : VReg) (I : Word) :
    encodeVA vd va vc vb = I ↔ FieldsVA I vd va vc vb := by
  rw [encodeVA]
  conv_lhs => rhs; rw [eq_fieldsVA I]
  change @Eq (BitVec (6 + 5 + 5 + 5 + 5 + 6)) _ _ ↔ _
  simp only [append_eq_append_iff]
  exact ⟨fun ⟨⟨⟨⟨⟨h0, hd⟩, ha⟩, hb⟩, hc⟩, h26⟩ => ⟨h0, h26, hd, ha, hc, hb⟩,
    fun ⟨h0, h26, hd, ha, hc, hb⟩ => ⟨⟨⟨⟨⟨h0, hd⟩, ha⟩, hb⟩, hc⟩, h26⟩⟩

/-- The word has the opcode fields of `vmaddfp128` and these registers in its split operand fields (R60). -/
structure FieldsVX128 (I : Word) (vd va vb : VReg) : Prop where
  primary : 0b000101#6 = srcBits I 0 5
  bit22 : 0b0#1 = srcBits I 22 22
  bits23 : 0b011#3 = srcBits I 23 25
  bit27 : 0b1#1 = srcBits I 27 27
  vdLow : low5 vd = srcBits I 6 10
  vdHigh : high2 vd = srcBits I 28 29
  vaLow : low5 va = srcBits I 11 15
  vaMid : mid1 va = srcBits I 26 26
  vaHigh : high1 va = srcBits I 21 21
  vbLow : low5 vb = srcBits I 16 20
  vbHigh : high2 vb = srcBits I 30 31

theorem encodeVX128_eq_iff (vd va vb : VReg) (I : Word) :
    encodeVX128 vd va vb = I ↔ FieldsVX128 I vd va vb := by
  rw [encodeVX128]
  conv_lhs => rhs; rw [eq_fieldsVX128 I]
  change @Eq (BitVec (6 + 5 + 5 + 5 + 1 + 1 + 3 + 1 + 1 + 2 + 2)) _ _ ↔ _
  simp only [append_eq_append_iff, and_assoc]
  exact ⟨fun ⟨h0, hdl, hal, hbl, hah, h22, h23, ham, h27, hdh, hbh⟩ =>
      ⟨h0, h22, h23, h27, hdl, hdh, hal, ham, hah, hbl, hbh⟩,
    fun ⟨h0, h22, h23, h27, hdl, hdh, hal, ham, hah, hbl, hbh⟩ =>
      ⟨h0, hdl, hal, hbl, hah, h22, h23, ham, h27, hdh, hbh⟩⟩

end Sys2Proof.Machine
end

section
/-! The rows, what a word decodes to, and the round trip (spec/30_encoding.md sections 3 to 5). -/

namespace Sys2Proof.Machine

/-- The row selects by mask and match (R59). -/
theorem rowVmaddfp128_selects_iff_mask (I : Word) :
    rowVmaddfp128.selects I = true ↔ I &&& 0xFC0003D0#32 = 0x140000D0#32 := by
  simp [OpcodeRow.selects, rowVmaddfp128]

/-- The row selects by its opcode fields: its mask is full on these and clear on the operand fields
(R59, D5). -/
theorem rowVmaddfp128_selects_iff_fields (I : Word) :
    rowVmaddfp128.selects I = true ↔
      (srcBits I 0 5).toNat = 5 ∧ (srcBits I 22 22).toNat = 0 ∧ (srcBits I 23 25).toNat = 3 ∧
      (srcBits I 27 27).toNat = 1 := by
  have mask : 0xFC0003D0#32 = BitVec.allOnes 6 ++ 0#5 ++ 0#5 ++ 0#5 ++ 0#1 ++ BitVec.allOnes 1
      ++ BitVec.allOnes 3 ++ 0#1 ++ BitVec.allOnes 1 ++ 0#2 ++ 0#2 := by decide
  have pattern : 0x140000D0#32 = 5#6 ++ 0#5 ++ 0#5 ++ 0#5 ++ 0#1 ++ 0#1 ++ 3#3 ++ 0#1 ++ 1#1 ++ 0#2
      ++ 0#2 := by decide
  rw [rowVmaddfp128_selects_iff_mask, mask, pattern]
  conv_lhs => lhs; lhs; rw [eq_fieldsVX128 I]
  change @Eq (BitVec (6 + 5 + 5 + 5 + 1 + 1 + 3 + 1 + 1 + 2 + 2)) (_ &&& _) _ ↔ _
  simp only [BitVec.and_append, append_eq_append_iff, BitVec.and_zero, BitVec.and_allOnes, and_true,
    and_assoc]
  simp only [← BitVec.toNat_inj]
  rfl

/-- The rows differ in the last bit of the primary opcode, which both compare. -/
theorem not_selects_both (I : Word) :
    ¬ (rowVmaddfp.selects I = true ∧ rowVmaddfp128.selects I = true) := by
  rw [rowVmaddfp_selects_iff_fields, rowVmaddfp128_selects_iff_fields]
  lia

/-! ### What a word decodes to -/

/-- A word decodes to a `vmaddfp128` exactly when its row selects the word, and then to the operands of
form `VX128`. -/
theorem decodeWord_eq_vmaddfp128_iff (I : Word) (vd va vb : VReg) :
    decodeWord I = .ok (.vmaddfp128 vd va vb) ↔
      rowVmaddfp128.selects I = true ∧ decodeVX128 I = .vmaddfp128 vd va vb := by
  have disjoint := not_selects_both I
  unfold decodeWord
  split
  · simp_all [decodeVA]
  · split <;> simp [*]

theorem exists_decodeWord_eq_vmaddfp128_iff (I : Word) :
    (∃ vd va vb, decodeWord I = .ok (.vmaddfp128 vd va vb)) ↔ rowVmaddfp128.selects I = true := by
  simp only [decodeWord_eq_vmaddfp128_iff]
  exact ⟨fun ⟨_, _, _, hsel, _⟩ => hsel, fun hsel => ⟨_, _, _, hsel, rfl⟩⟩

/-- The operands of a word that decodes to a `vmaddfp128` are those of form `VX128` (R61). -/
theorem operands_of_decodeWord_eq_vmaddfp128 {I : Word} {vd va vb : VReg}
    (h : decodeWord I = .ok (.vmaddfp128 vd va vb)) : vd = vd128 I ∧ va = va128 I ∧ vb = vb128 I := by
  obtain ⟨-, hops⟩ := (decodeWord_eq_vmaddfp128_iff I vd va vb).mp h
  obtain ⟨rfl, rfl, rfl⟩ := Instr.vmaddfp128.inj hops
  exact ⟨rfl, rfl, rfl⟩

/-- A word that neither row selects is rejected with its name (R68). -/
theorem decodeWord_eq_notInScope {I : Word} (h : rowVmaddfp.selects I = false)
    (h128 : rowVmaddfp128.selects I = false) : decodeWord I = .error (.notInScope I) := by
  simp [decodeWord, h, h128]

/-! ### The round trip -/

theorem wf_vmaddfp_iff (vd va vc vb : VReg) :
    (Instr.vmaddfp vd va vc vb).wf = true ↔ vd.val < 32 ∧ va.val < 32 ∧ vc.val < 32 ∧ vb.val < 32 := by
  simp [Instr.wf, and_assoc]

theorem decodeWord_encodeVA {vd va vc vb : VReg} (h : (Instr.vmaddfp vd va vc vb).wf = true) :
    decodeWord (encodeVA vd va vc vb) = .ok (.vmaddfp vd va vc vb) := by
  obtain ⟨hd, ha, hc, hb⟩ := (wf_vmaddfp_iff ..).mp h
  have fields := (encodeVA_eq_iff vd va vc vb _).mp rfl
  refine (decodeWord_eq_vmaddfp_iff _ _ _ _ _).mpr ⟨Laws.EncodesItsRow.vmaddfp vd va vc vb, ?_⟩
  rw [decodeVA, ← fields.vd, ← fields.va, ← fields.vc, ← fields.vb, vregOfBits_low5 hd,
    vregOfBits_low5 ha, vregOfBits_low5 hc, vregOfBits_low5 hb]

theorem decodeWord_encodeVX128 (vd va vb : VReg) :
    decodeWord (encodeVX128 vd va vb) = .ok (.vmaddfp128 vd va vb) := by
  have fields := (encodeVX128_eq_iff vd va vb _).mp rfl
  refine (decodeWord_eq_vmaddfp128_iff _ _ _ _).mpr ⟨Laws.EncodesItsRow.vmaddfp128 vd va vb, ?_⟩
  rw [decodeVX128, vd128, va128, vb128, ← fields.vdLow, ← fields.vdHigh, ← fields.vaLow, ← fields.vaMid,
    ← fields.vaHigh, ← fields.vbLow, ← fields.vbHigh, vregOfBits_high2_low5, vregOfBits_high1_mid1_low5,
    vregOfBits_high2_low5]

theorem decodeWord_encode {i : Instr} (h : i.wf = true) : decodeWord (encode i) = .ok i := by
  cases i with
  | vmaddfp vd va vc vb => exact decodeWord_encodeVA h
  | vmaddfp128 vd va vb => exact decodeWord_encodeVX128 vd va vb

theorem wf_of_decodeWord {I : Word} {i : Instr} (h : decodeWord I = .ok i) : i.wf = true := by
  cases i with
  | vmaddfp vd va vc vb =>
    obtain ⟨hvd, hva, hvb, hvc⟩ := vmaddfpOperandFields I vd va vc vb h
    rw [wf_vmaddfp_iff, hvd, hva, hvb, hvc]
    exact ⟨BitVec.isLt _, BitVec.isLt _, BitVec.isLt _, BitVec.isLt _⟩
  | vmaddfp128 vd va vb => rfl

/-- Both opcode fields come from the row, the operands from their own fields. -/
theorem encode_of_decodeWord {I : Word} {i : Instr} (h : decodeWord I = .ok i) : encode i = I := by
  cases i with
  | vmaddfp vd va vc vb =>
    obtain ⟨hsel, hops⟩ := (decodeWord_eq_vmaddfp_iff I vd va vc vb).mp h
    obtain ⟨rfl, rfl, rfl, rfl⟩ := Instr.vmaddfp.inj hops
    obtain ⟨hprimary, hextended⟩ := (rowVmaddfp_selects_iff_fields I).mp hsel
    exact (encodeVA_eq_iff _ _ _ _ I).mpr {
      primary := BitVec.eq_of_toNat_eq hprimary.symm
      extended := BitVec.eq_of_toNat_eq hextended.symm
      vd := low5_vregOfBits _
      va := low5_vregOfBits _
      vc := low5_vregOfBits _
      vb := low5_vregOfBits _ }
  | vmaddfp128 vd va vb =>
    obtain ⟨hsel, -⟩ := (decodeWord_eq_vmaddfp128_iff I vd va vb).mp h
    obtain ⟨rfl, rfl, rfl⟩ := operands_of_decodeWord_eq_vmaddfp128 h
    obtain ⟨h0, h22, h23, h27⟩ := (rowVmaddfp128_selects_iff_fields I).mp hsel
    obtain ⟨hvaHigh, hvaMid⟩ : high1 (va128 I) = srcBits I 21 21 ∧ mid1 (va128 I) = srcBits I 26 26 := by
      rw [← append_eq_append_iff, high1_append_mid1]
      exact high2_vregOfBits_append _ _
    exact (encodeVX128_eq_iff _ _ _ I).mpr {
      primary := BitVec.eq_of_toNat_eq h0.symm
      bit22 := BitVec.eq_of_toNat_eq h22.symm
      bits23 := BitVec.eq_of_toNat_eq h23.symm
      bit27 := BitVec.eq_of_toNat_eq h27.symm
      vdLow := low5_vregOfBits_append _ _
      vdHigh := high2_vregOfBits_append _ _
      vaLow := low5_vregOfBits_append _ _
      vaMid := hvaMid
      vaHigh := hvaHigh
      vbLow := low5_vregOfBits_append _ _
      vbHigh := high2_vregOfBits_append _ _ }

/-- Settles O7: the row and the fields of a word determine its instruction and the instruction's word. -/
theorem decodeEncodeAgree : Obligations.DecodeEncodeAgree :=
  ⟨fun _ h => decodeWord_encode h, fun _ _ h => ⟨wf_of_decodeWord h, encode_of_decodeWord h⟩⟩

/-- Settles O4: the decoder asks the row of `vmaddfp128`, which selects by mask and by fields alike. -/
theorem vmaddfp128Selection : Obligations.Vmaddfp128Selection := fun I =>
  ⟨(exists_decodeWord_eq_vmaddfp128_iff I).trans (rowVmaddfp128_selects_iff_mask I),
    (exists_decodeWord_eq_vmaddfp128_iff I).trans (rowVmaddfp128_selects_iff_fields I)⟩

/-- Settles O5: each operand is the string of its split fields, and the number of a string is the sum of
its scaled parts. -/
theorem vmaddfp128OperandNumbers : Obligations.Vmaddfp128OperandNumbers := by
  refine ⟨fun I vd va vb h => ?numbers, fun vd va vb => ⟨_, decodeWord_encodeVX128 vd va vb⟩⟩
  obtain ⟨rfl, rfl, rfl⟩ := operands_of_decodeWord_eq_vmaddfp128 h
  refine ⟨?vd, ?va, ?vb⟩
  case vd =>
    rw [vd128, val_vregOfBits _ (by decide), toNat_append_eq_add]
    rfl
  case va =>
    rw [va128, val_vregOfBits _ (by decide), toNat_append_eq_add, toNat_append_eq_add, Nat.add_mul,
      Nat.mul_assoc]
    rfl
  case vb =>
    rw [vb128, val_vregOfBits _ (by decide), toNat_append_eq_add]
    rfl

/-- Settles O6: the number of the bit string of R60 is the sum of its scaled parts. -/
theorem vmaddfp128Word : Obligations.Vmaddfp128Word := by
  intro vd va vb
  simp only [encode, encodeVX128, toNat_append_eq_add, toNat_low5, toNat_mid1, toNat_high1, toNat_high2,
    BitVec.toNat_ofNat]
  lia

/-- Settles O9: the rows exclude each other, and the decoder follows them. -/
theorem decodeIsTotalAndDisjoint : Obligations.DecodeIsTotalAndDisjoint := fun I =>
  ⟨not_selects_both I, (exists_decodeWord_eq_vmaddfp_iff I).mpr,
    (exists_decodeWord_eq_vmaddfp128_iff I).mpr, decodeWord_eq_notInScope⟩

/-- What a mask keeps of the bits that were turned over, from what it keeps of the word before and after. -/
theorem and_mask_eq_xor (I x mask : Word) : x &&& mask = ((I ^^^ x) &&& mask) ^^^ (I &&& mask) := by
  ext k
  simp only [BitVec.getElem_xor, BitVec.getElem_and]
  cases I[k] <;> cases x[k] <;> simp

/-- A word of `vmaddfp128` with some of its compared bits turned over is in neither row, unless these
make the primary opcode 4 and clear bit 27, as the row of `vmaddfp` needs. -/
theorem decodeWord_xor_eq_notInScope (x : Word) {I : Word} (h : rowVmaddfp128.selects I = true)
    (hx : x &&& 0xFC0003D0#32 ≠ 0) (hx' : x &&& 0xFC000010#32 ≠ 0x04000010#32) :
    decodeWord (I ^^^ x) = .error (.notInScope (I ^^^ x)) := by
  rw [rowVmaddfp128_selects_iff_mask] at h
  apply decodeWord_eq_notInScope
  · rw [← Bool.not_eq_true, rowVmaddfp_selects_iff_mask]
    intro hJ
    have hJ' : (I ^^^ x) &&& 0xFC000010#32 = 0x10000000#32 := by
      simpa [BitVec.and_assoc] using congrArg (· &&& 0xFC000010#32) hJ
    have hI' : I &&& 0xFC000010#32 = 0x14000010#32 := by
      simpa [BitVec.and_assoc] using congrArg (· &&& 0xFC000010#32) h
    exact hx' (by rw [and_mask_eq_xor I, hJ', hI']; decide)
  · rw [← Bool.not_eq_true, rowVmaddfp128_selects_iff_mask]
    intro hJ
    exact hx (by rw [and_mask_eq_xor I, hJ, h]; decide)

/-- Settles O10: each of the three bits is compared, and turning over one of them does not make both the
changes that lead to the row of `vmaddfp`. -/
theorem reservedBitsAreCompared : Obligations.ReservedBitsAreCompared := by
  intro vd va vb
  have selected : rowVmaddfp128.selects (encode (.vmaddfp128 vd va vb)) = true :=
    Laws.EncodesItsRow.vmaddfp128 vd va vb
  exact ⟨decodeWord_xor_eq_notInScope _ selected (by decide) (by decide),
    decodeWord_xor_eq_notInScope _ selected (by decide) (by decide),
    decodeWord_xor_eq_notInScope _ selected (by decide) (by decide)⟩

/-- Settles O1: ten single words, each decoded. -/
theorem knownWordsDecode : Obligations.KnownWordsDecode := by
  unfold Obligations.KnownWordsDecode
  decide

end Sys2Proof.Machine
end

section
/-! Decode and encode over bytes (spec/30_encoding.md R55, R64), and the image of a register in memory
(spec/20_memory.md R41, R45). -/

namespace Sys2Proof.Machine

/-! ### Bytes -/

theorem wordOfBytes_inj (b0 b1 b2 b3 c0 c1 c2 c3 : Byte) :
    wordOfBytes b0 b1 b2 b3 = wordOfBytes c0 c1 c2 c3 ↔ b0 = c0 ∧ b1 = c1 ∧ b2 = c2 ∧ b3 = c3 := by
  change @Eq (BitVec (8 + 8 + 8 + 8)) (b0 ++ b1 ++ b2 ++ b3) (c0 ++ c1 ++ c2 ++ c3) ↔ _
  simp only [append_eq_append_iff, and_assoc]

/-- Four bytes put together and laid out again are the four bytes (R41). -/
theorem bytesOfWord_wordOfBytes (b0 b1 b2 b3 : Byte) :
    bytesOfWord (wordOfBytes b0 b1 b2 b3) = [b0, b1, b2, b3] := by
  obtain ⟨h0, h1, h2, h3⟩ := (wordOfBytes_inj ..).mp (wordOfBytes_bytesOfWord (wordOfBytes b0 b1 b2 b3))
  rw [bytesOfWord, h0, h1, h2, h3]

/-- The byte decoder takes a word from the front and decodes it. -/
theorem decode_wordOfBytes (b0 b1 b2 b3 : Byte) (rest : List Byte) :
    decode (b0 :: b1 :: b2 :: b3 :: rest) = (decodeWord (wordOfBytes b0 b1 b2 b3)).map (·, rest) := by
  rw [decode]
  cases decodeWord (wordOfBytes b0 b1 b2 b3) <;> rfl

theorem decode_bytesOfWord_append (I : Word) (rest : List Byte) :
    decode (bytesOfWord I ++ rest) = (decodeWord I).map (·, rest) := by
  rw [← wordOfBytes_bytesOfWord I, bytesOfWord_wordOfBytes]
  exact decode_wordOfBytes _ _ _ _ _

theorem decode_of_length_lt {bs : List Byte} (h : bs.length < 4) : decode bs = .error .truncated := by
  match bs with
  | [] | [_] | [_, _] | [_, _, _] => rfl
  | _ :: _ :: _ :: _ :: _ => simp at h; lia

/-- A string that decodes begins with the bytes of a word that decodes. -/
theorem eq_bytesOfWord_append_of_decode {bs rest : List Byte} {i : Instr} (h : decode bs = .ok (i, rest)) :
    ∃ I, bs = bytesOfWord I ++ rest ∧ decodeWord I = .ok i := by
  match bs with
  | [] | [_] | [_, _] | [_, _, _] => cases h
  | b0 :: b1 :: b2 :: b3 :: rest' =>
    rw [decode_wordOfBytes] at h
    refine ⟨wordOfBytes b0 b1 b2 b3, ?_⟩
    cases hd : decodeWord (wordOfBytes b0 b1 b2 b3) with
    | error e => simp [hd, Except.map] at h
    | ok j =>
      obtain ⟨rfl, rfl⟩ : j = i ∧ rest' = rest := by simpa [hd, Except.map] using h
      exact ⟨by rw [bytesOfWord_wordOfBytes]; rfl, rfl⟩

/-- Settles O8: the byte decoder is the word decoder at the front of the string, and that one is inverse
to `encode`. -/
theorem byteDecodeAgrees : Obligations.ByteDecodeAgrees := by
  refine ⟨fun i rest h => ?roundTrip, fun bs rest i h => ?converse, fun bs h => decode_of_length_lt h⟩
  case roundTrip =>
    rw [decode_bytesOfWord_append, decodeWord_encode h]
    rfl
  case converse =>
    obtain ⟨I, hbs, hI⟩ := eq_bytesOfWord_append_of_decode h
    rw [hbs, encode_of_decodeWord hI]

/-! ### The image of a register -/

/-- Byte `r` of lane `i` stands in the image at `4 * i + r`, most significant first (R45). -/
theorem getElem_vecImage (x : Vec) (i : Fin 4) (r : Nat) (hr : r < 4) :
    (vecImage x)[4 * i.val + r] = (lane x i).extractLsb' (24 - 8 * r) 8 := by
  ext j hj
  have hlt : 24 - 8 * r + j < 32 := by lia
  have hplace : 120 - 8 * (4 * i.val + r) + j = 96 - 32 * i.val + (24 - 8 * r + j) := by lia
  simp [vecImage, lane, hlt, hplace]

theorem wordOfBytes_vecImage (x : Vec) (i : Fin 4) :
    wordOfBytes (vecImage x)[4 * i.val] (vecImage x)[4 * i.val + 1] (vecImage x)[4 * i.val + 2]
      (vecImage x)[4 * i.val + 3] = lane x i := by
  have h0 : (vecImage x)[4 * i.val] = _ := getElem_vecImage x i 0 (by decide)
  rw [h0, getElem_vecImage x i 1 (by decide), getElem_vecImage x i 2 (by decide),
    getElem_vecImage x i 3 (by decide)]
  exact wordOfBytes_bytesOfWord (lane x i)

/-- Two images with the same four words are the same. -/
theorem image_ext {b b' : Vector Byte 16}
    (h : ∀ i : Fin 4, wordOfBytes b[4 * i.val] b[4 * i.val + 1] b[4 * i.val + 2] b[4 * i.val + 3] =
      wordOfBytes b'[4 * i.val] b'[4 * i.val + 1] b'[4 * i.val + 2] b'[4 * i.val + 3]) : b = b' := by
  ext1 k hk
  obtain ⟨q, hq, hk'⟩ : ∃ q < 4, k = 4 * q ∨ k = 4 * q + 1 ∨ k = 4 * q + 2 ∨ k = 4 * q + 3 :=
    ⟨k / 4, by lia, by lia⟩
  obtain ⟨h0, h1, h2, h3⟩ := (wordOfBytes_inj ..).mp (h ⟨q, hq⟩)
  obtain rfl | rfl | rfl | rfl := hk'
  · exact h0
  · exact h1
  · exact h2
  · exact h3

/-- Settles O50: a register is its four lanes and an image its four words, and lane `i` is word `i`. -/
theorem registerImage : Obligations.RegisterImage := by
  refine ⟨fun x => vec_ext _ _ fun i => ?lanes, fun b => image_ext fun i => ?words, wordOfBytes_vecImage⟩
  case lanes => rw [vecOfImage, lane_lanesOf, wordOfBytes_vecImage]
  case words => rw [wordOfBytes_vecImage, vecOfImage, lane_lanesOf]

end Sys2Proof.Machine
end

section
/-! Lines of assembly (spec/30_encoding.md R69 to R71, D22). -/

namespace Sys2Proof.Machine

/-- A number in range is read as the register it names (R69, R70). -/
theorem asmReg_val {bound : Nat} {n : VReg} (h : n.val < bound) : asmReg bound n.val = some n := by
  rw [asmReg, if_pos ⟨h, n.isLt⟩]
  exact congrArg some (Fin.ext (Nat.mod_eq_of_lt n.isLt))

/-- A register that is read is in range and has the number it was read from. -/
theorem asmReg_eq_some {bound n : Nat} {r : VReg} (h : asmReg bound n = some r) :
    r.val < bound ∧ r.val = n := by
  unfold asmReg at h
  split at h
  · rename_i hn
    obtain rfl := Option.some.inj h
    have hval : (Fin.ofNat 128 n).val = n := Nat.mod_eq_of_lt hn.2
    exact ⟨hval.symm ▸ hn.1, hval⟩
  · cases h

/-- A line of `vmaddfp` names four registers below 32 (R69). -/
theorem assemble_vmaddfp_eq (w x y z : Nat) : assemble ⟨"vmaddfp", [w, x, y, z]⟩ =
    (asmReg 32 w).bind fun vd => (asmReg 32 x).bind fun va => (asmReg 32 y).bind fun vc =>
      (asmReg 32 z).map fun vb => .vmaddfp vd va vc vb := by
  dsimp only [assemble]
  rw [if_pos rfl]
  cases asmReg 32 w <;> cases asmReg 32 x <;> cases asmReg 32 y <;> cases asmReg 32 z <;> rfl

/-- A line of `vmaddfp128` names three registers, and the first again (R70). -/
theorem assemble_vmaddfp128_eq (w x y z : Nat) : assemble ⟨"vmaddfp128", [w, x, y, z]⟩ =
    (asmReg 128 w).bind fun vd => (asmReg 128 x).bind fun va => (asmReg 128 y).bind fun vb =>
      if z = w then some (.vmaddfp128 vd va vb) else none := by
  dsimp only [assemble]
  rw [if_neg (by decide), if_pos rfl]
  cases asmReg 128 w <;> cases asmReg 128 x <;> cases asmReg 128 y <;> rfl

/-- The lines that name an instruction: a mnemonic and four numbers (R69, R70). -/
inductive MnemonicAndOperands : AsmLine → Prop where
  | vmaddfp (w x y z : Nat) : MnemonicAndOperands ⟨"vmaddfp", [w, x, y, z]⟩
  | vmaddfp128 (w x y z : Nat) : MnemonicAndOperands ⟨"vmaddfp128", [w, x, y, z]⟩

/-- No other line is an instruction. -/
theorem mnemonicAndOperands_of_assemble {l : AsmLine} {i : Instr} (h : assemble l = some i) :
    MnemonicAndOperands l := by
  obtain ⟨mnemonic, operands⟩ := l
  match operands with
  | [] | [_] | [_, _] | [_, _, _] | _ :: _ :: _ :: _ :: _ :: _ => cases h
  | [w, x, y, z] =>
    by_cases hname : mnemonic = "vmaddfp"
    · exact hname ▸ .vmaddfp w x y z
    by_cases hname' : mnemonic = "vmaddfp128"
    · exact hname' ▸ .vmaddfp128 w x y z
    · simp [assemble, hname, hname'] at h

theorem assemble_toAsm {i : Instr} (h : i.wf = true) : assemble (toAsm i) = some i := by
  cases i with
  | vmaddfp vd va vc vb =>
    obtain ⟨hd, ha, hc, hb⟩ := (wf_vmaddfp_iff ..).mp h
    rw [toAsm, assemble_vmaddfp_eq, asmReg_val hd, asmReg_val ha, asmReg_val hc, asmReg_val hb]
    rfl
  | vmaddfp128 vd va vb =>
    rw [toAsm, assemble_vmaddfp128_eq, asmReg_val vd.isLt, asmReg_val va.isLt, asmReg_val vb.isLt]
    exact if_pos rfl

/-- A line that is read is the line of what it is read as. -/
theorem toAsm_of_assemble {l : AsmLine} {i : Instr} (h : assemble l = some i) :
    i.wf = true ∧ toAsm i = l := by
  cases mnemonicAndOperands_of_assemble h with
  | vmaddfp w x y z =>
    rw [assemble_vmaddfp_eq] at h
    obtain ⟨vd, hvd, h⟩ := Option.bind_eq_some_iff.mp h
    obtain ⟨va, hva, h⟩ := Option.bind_eq_some_iff.mp h
    obtain ⟨vc, hvc, h⟩ := Option.bind_eq_some_iff.mp h
    obtain ⟨vb, hvb, rfl⟩ := Option.map_eq_some_iff.mp h
    obtain ⟨hdlt, rfl⟩ := asmReg_eq_some hvd
    obtain ⟨halt, rfl⟩ := asmReg_eq_some hva
    obtain ⟨hclt, rfl⟩ := asmReg_eq_some hvc
    obtain ⟨hblt, rfl⟩ := asmReg_eq_some hvb
    exact ⟨(wf_vmaddfp_iff ..).mpr ⟨hdlt, halt, hclt, hblt⟩, rfl⟩
  | vmaddfp128 w x y z =>
    rw [assemble_vmaddfp128_eq] at h
    obtain ⟨vd, hvd, h⟩ := Option.bind_eq_some_iff.mp h
    obtain ⟨va, hva, h⟩ := Option.bind_eq_some_iff.mp h
    obtain ⟨vb, hvb, h⟩ := Option.bind_eq_some_iff.mp h
    obtain ⟨hsame, hi⟩ := Option.ite_none_right_eq_some.mp h
    obtain rfl := Option.some.inj hi
    obtain ⟨-, rfl⟩ := asmReg_eq_some hvd
    obtain ⟨-, rfl⟩ := asmReg_eq_some hva
    obtain ⟨-, rfl⟩ := asmReg_eq_some hvb
    exact ⟨rfl, by rw [toAsm, hsame]⟩

/-- Four registers as they are printed (D22). -/
theorem renderRegs_four (w x y z : Nat) :
    renderRegs [w, x, y, z] = "v" ++ toString w ++ ", v" ++ toString x ++ ", v" ++ toString y ++ ", v"
      ++ toString z := by
  have comma : ", v" = ", " ++ "v" := by decide
  simp only [renderRegs, comma, String.append_assoc]

/-- Settles O11: the operands are the fields of the word, the text is the mnemonic and the four registers,
and a line is read as the instruction that it is the line of. -/
theorem assemblyRoundTrip : Obligations.AssemblyRoundTrip := by
  refine ⟨fun I vd va vc vb h => ?operands, fun I vd va vb h => ?operands128, fun vd va vc vb => ?text,
    fun vd va vb => ?text128, fun _ => assemble_toAsm, fun _ _ => toAsm_of_assemble⟩
  case operands =>
    obtain ⟨hvd, hva, hvb, hvc⟩ := vmaddfpOperandFields I vd va vc vb h
    rw [toAsm, hvd, hva, hvb, hvc]
  case operands128 =>
    obtain ⟨rfl, rfl, rfl⟩ := operands_of_decodeWord_eq_vmaddfp128 h
    rfl
  case text =>
    have head : "vmaddfp v" = "vmaddfp" ++ " " ++ "v" := by decide
    simp only [AsmLine.render, toAsm, renderRegs_four, head, String.append_assoc]
  case text128 =>
    have head : "vmaddfp128 v" = "vmaddfp128" ++ " " ++ "v" := by decide
    simp only [AsmLine.render, toAsm, renderRegs_four, head, String.append_assoc]

end Sys2Proof.Machine
end

section
/-! What any step keeps and can change (spec/10_state.md R24, R40, spec/41_vmaddfp.md section 3), and the
state after reset (spec/10_state.md section 6). -/

namespace Sys2Proof.Machine

/-! ### The invariant -/

/-- Addresses are counted modulo a multiple of 4, since `PCW` is at least 3 (R8). -/
theorem four_dvd_two_pow_pcw {c : Config} (h : c.Wf) : 4 ∣ 2 ^ c.pcw := by
  obtain ⟨hpcw, -⟩ := h
  exact Nat.pow_dvd_pow 2 (show 2 ≤ c.pcw by lia)

/-- Of what the invariant speaks of, the shared operation changes `pc` alone, and that by 4 modulo a
multiple of 4. -/
theorem inv_maddInto {s : State} (h : s.Inv) (vd a c b : VReg) : (s.maddInto vd a c b).Inv where
  cfg := h.cfg
  pc_lt := Nat.mod_lt _ (Nat.two_pow_pos _)
  pc_aligned := by
    have hpc := h.pc_aligned
    rw [maddInto_pc, Nat.mod_mod_of_dvd _ (four_dvd_two_pow_pcw h.cfg)]
    lia
  region := h.region
  mem := h.mem
  mem_lt := h.mem_lt
  vscr_lt := h.vscr_lt

/-- Settles O43: a step that goes on is the shared operation. -/
theorem stepKeepsTheInvariant : Obligations.StepKeepsTheInvariant := by
  intro s t hinv h
  obtain ⟨vd, a, c, b, rfl⟩ := step_next_maddInto h
  exact inv_maddInto hinv vd a c b

/-- Settles O45: the shared operation into `vd` changes `vd` and `pc` alone. -/
theorem whatAStepCanChange : Obligations.WhatAStepCanChange := by
  intro s t h
  obtain ⟨vd, a, c, b, rfl⟩ := step_next_maddInto h
  exact ⟨kept_maddInto s vd a c b, maddInto_pc s vd a c b, vd, v_maddInto_ne s vd a c b⟩

/-! ### Reset -/

theorem read_reset (a : Nat) : State.reset.mem.read a = none := rfl

/-- Right after reset `pc` is just past a program of no words. -/
theorem step_reset : step State.reset = .refused .runEnded := rfl

/-- The launch value of `VSCR` has its width, since `NJ` is one of its bits (R26). -/
theorem launchVscr_lt {c : Config} (h : c.njPos < c.vscrW) : launchVscr c < 2 ^ c.vscrW :=
  Nat.or_lt_two_pow (Nat.mod_lt _ (Nat.two_pow_pos _)) (Nat.pow_lt_pow_right (by decide) h)

/-- `NJ` is 1 at the launch, whatever the other bits are (R27). -/
theorem testBit_launchVscr (c : Config) : (launchVscr c).testBit c.njPos = true := by
  rw [launchVscr, Nat.testBit_or, Nat.testBit_two_pow_self, Bool.or_true]

/-- Settles O44: no byte is loaded, and `VSCR` has its width. -/
theorem resetMeetsTheInvariant : Obligations.ResetMeetsTheInvariant where
  cfg := by decide
  pc_lt := by decide
  pc_aligned := rfl
  region := by decide
  mem := reset_mem_wf
  mem_lt _ hc := absurd hc List.not_mem_nil
  vscr_lt := launchVscr_lt (c := Config.launch) (by decide)

/-- Settles O51: `NJ` is set at the launch, and the registers are read as they were given. -/
theorem afterReset : Obligations.AfterReset :=
  ⟨testBit_launchVscr Config.launch, rfl, fun n => by simp [v_eq, State.reset], read_reset, step_reset⟩

end Sys2Proof.Machine
end

section
/-! What `vmaddfp128` does in any state, and beside `vmaddfp` (spec/41_vmaddfp.md section 2, C1). -/

namespace Sys2Proof.Machine

theorem exec_vmaddfp128_eq (vd va vb : VReg) (s : State) :
    exec (.vmaddfp128 vd va vb) s = .next (s.maddInto vd va vd vb) :=
  exec_eq _ s

/-- Settles O31: the instruction is the shared operation, whose lanes, `pc` and frame are known. -/
theorem vmaddfp128Completes : Obligations.Vmaddfp128Completes := fun vd va vb s =>
  ⟨s.maddInto vd va vd vb, exec_vmaddfp128_eq vd va vb s, maddResult_lane_maddInto s vd va vd vb,
    maddInto_pc s vd va vd vb, v_maddInto_ne s vd va vd vb, kept_maddInto s vd va vd vb⟩

/-- Settles O32: aliased operands are a case of all operands. -/
theorem vmaddfp128Aliasing : Obligations.Vmaddfp128Aliasing := by
  have lanes_old (vd va vb : VReg) (s : State) :
      ∃ t : State, exec (.vmaddfp128 vd va vb) s = .next t ∧ ∀ j : Fin 4,
        MaddResult (lane (s.v va) j) (lane (s.v vd) j) (lane (s.v vb) j) (lane (t.v vd) j) := by
    obtain ⟨t, hexec, hlanes, -⟩ := vmaddfp128Completes vd va vb s
    exact ⟨t, hexec, hlanes⟩
  exact fun n x s => ⟨lanes_old n n x s, lanes_old n x n s, lanes_old n n n s⟩

/-- Settles O30: the row selects the word, so it decodes to a `vmaddfp128` whose operands are the sums of
its split fields, and that instruction completes in every state. -/
theorem vmaddfp128WordMeaning : Obligations.Vmaddfp128WordMeaning := by
  intro I s hmask
  have hsel := (rowVmaddfp128_selects_iff_mask I).mpr hmask
  obtain ⟨vd, va, vb, hdec⟩ := (exists_decodeWord_eq_vmaddfp128_iff I).mpr hsel
  obtain ⟨numbers, -⟩ := vmaddfp128OperandNumbers
  obtain ⟨hvd, hva, hvb⟩ := numbers I vd va vb hdec
  obtain ⟨t, hexec, hlanes, hpc, hother, hkept⟩ := vmaddfp128Completes vd va vb s
  exact ⟨.vmaddfp128 vd va vb, t, vd, va, vb, hdec, hexec, hvd, hva, hvb, hlanes, hpc, hother, hkept⟩

/-- Settles O36: both are the shared operation on the same registers. -/
theorem theTwoInstructionsAgree : Obligations.TheTwoInstructionsAgree := by
  intro vd va vb s _
  rw [exec_vmaddfp128_eq, exec_vmaddfp_eq]

/-- The shared operation depends on the contents of its sources, not on their numbers. -/
theorem maddInto_congr (s : State) (vd a : VReg) {c b c' b' : VReg} (hc : s.v c = s.v c')
    (hb : s.v b = s.v b') : s.maddInto vd a c b = s.maddInto vd a c' b' := by
  simp only [State.maddInto, hc, hb]

/-- Settles O37: the overruled reading exchanges two registers, which makes no difference where they hold
the same. -/
theorem addendReadings : Obligations.AddendReadings := by
  refine fun vd va vb s => ⟨exec_vmaddfp128_eq vd va vb s, fun hsame => ?_⟩
  rw [exec_vmaddfp128_eq]
  exact congrArg _ (maddInto_congr s vd va hsame.symm hsame)

/-- Settles O52: both instructions are the shared operation, whose lanes draw one after another. -/
theorem eachLaneTakesItsOwnDraw : Obligations.EachLaneTakesItsOwnDraw := by
  have draws (vd a c b : VReg) (s : State) (j : Fin 4) : lane ((s.maddInto vd a c b).v vd) j =
      maddLane (nanResult (s.draws + j.val)) (lane (s.v a) j) (lane (s.v c) j) (lane (s.v b) j) := by
    rw [v_maddInto_self, lane_maddVec]
  exact ⟨fun vd va vc vb s => ⟨_, exec_vmaddfp_eq vd va vc vb s, maddInto_draws .., draws vd va vc vb s⟩,
    fun vd va vb s => ⟨_, exec_vmaddfp128_eq vd va vb s, maddInto_draws .., draws vd va vd vb s⟩⟩

end Sys2Proof.Machine
end

section
/-! The fetch and the step (spec/20_memory.md sections 2 and 3, spec/60_exceptions.md section 3). -/

namespace Sys2Proof.Machine

/-! ### Reading a word -/

/-- Of the addresses from `a` on, `x` is the first at which no byte is loaded (log 6). -/
structure FirstUnloaded (m : Memory) (a x : Nat) : Prop where
  le : a ≤ x
  unloaded : m.read x = none
  loaded_before : ∀ a', a ≤ a' → a' < x → (m.read a').isSome = true

/-- Reading bytes stops at the first address that has none. -/
theorem firstUnloaded_of_readBytes {m : Memory} {a n x : Nat} (h : m.readBytes a n = .error x) :
    FirstUnloaded m a x ∧ x < a + n := by
  induction n generalizing a with
  | zero => cases h
  | succ n ih =>
    rw [Memory.readBytes] at h
    split at h
    next hnone =>
      obtain rfl := Except.error.inj h
      exact ⟨⟨le_rfl, hnone, fun a' _ _ => by lia⟩, by lia⟩
    next b hsome =>
      split at h
      next => cases h
      next x' hrest =>
        obtain rfl := Except.error.inj h
        obtain ⟨⟨hle, hnone, hbefore⟩, hlt⟩ := ih hrest
        refine ⟨⟨by lia, hnone, fun a' ha hx => ?_⟩, by lia⟩
        rcases Nat.eq_or_lt_of_le ha with rfl | ha
        · simp [hsome]
        · exact hbefore a' ha hx

/-- Bytes that are read are those at the addresses from the first on. -/
theorem readBytes_ok {m : Memory} {a n : Nat} {bs : List Byte} (h : m.readBytes a n = .ok bs) :
    bs.length = n ∧ ∀ k < n, m.read (a + k) = bs[k]? := by
  induction n generalizing a bs with
  | zero =>
    obtain rfl := Except.ok.inj h
    exact ⟨rfl, fun k hk => by lia⟩
  | succ n ih =>
    rw [Memory.readBytes] at h
    split at h
    next => cases h
    next b hsome =>
      split at h
      next bs' hrest =>
        obtain rfl := Except.ok.inj h
        obtain ⟨hlen, hread⟩ := ih hrest
        refine ⟨by rw [List.length_cons, hlen], fun k hk => ?_⟩
        cases k with
        | zero => exact hsome
        | succ k =>
          rw [List.getElem?_cons_succ, ← hread k (by lia)]
          congr 1
          lia
      next => cases h

/-- A word is read from four bytes, or the read faults at the first of the four addresses that has none. -/
inductive WordRead (m : Memory) (a : Nat) : Prop where
  | next (I : Word) (read : m.readWord a = .next I) (loaded : ∀ k < 4, (m.read (a + k)).isSome = true)
  | fault (x : Nat) (read : m.readWord a = .fault (.unloadedByte x)) (first : FirstUnloaded m a x)
    (lt : x < a + 4)

theorem readWord_cases (m : Memory) (a : Nat) : WordRead m a := by
  cases h : m.readBytes a 4 with
  | error x =>
    obtain ⟨hfirst, hlt⟩ := firstUnloaded_of_readBytes h
    exact .fault x (by simp [Memory.readWord, h]) hfirst hlt
  | ok bs =>
    obtain ⟨hlen, hread⟩ := readBytes_ok h
    obtain ⟨b0, b1, b2, b3, rfl⟩ : ∃ b0 b1 b2 b3, bs = [b0, b1, b2, b3] := by
      match bs, hlen with
      | [b0, b1, b2, b3], _ => exact ⟨b0, b1, b2, b3, rfl⟩
    refine .next (wordOfBytes b0 b1 b2 b3) (by simp [Memory.readWord, h]) fun k hk => ?_
    rw [hread k hk, List.getElem?_eq_getElem (by simpa using hk)]
    rfl

/-- The word at an address depends on the four bytes there alone. -/
theorem readWord_congr {m m' : Memory} {a : Nat} (h : ∀ x, a ≤ x → x < a + 4 → m.read x = m'.read x) :
    m.readWord a = m'.readWord a := by
  have h0 := h a (by lia) (by lia)
  have h1 := h (a + 1) (by lia) (by lia)
  have h2 := h (a + 2) (by lia) (by lia)
  have h3 := h (a + 3) (by lia) (by lia)
  simp only [Memory.readWord, Memory.readBytes, Nat.add_assoc, Nat.reduceAdd, h0, h1, h2, h3]

/-! ### The fetch -/

theorem fetch_of_inRegion {s : State} (ha : s.pc % 4 = 0) (hr : s.inRegion = true) :
    s.fetch = s.mem.readWord s.pc := by
  simp [State.fetch, ha, hr]

theorem inRegion_iff (s : State) :
    s.inRegion = true ↔ s.region.base ≤ s.pc ∧ s.pc + 4 ≤ s.region.base + s.region.len := by
  simp [State.inRegion]

/-- Settles O40: the fetch reads the four bytes at `pc`, and the number of a string of bytes is the sum of
its scaled parts. -/
theorem fetchIsBigEndian : Obligations.FetchIsBigEndian := by
  intro s b0 b1 b2 b3 ha hr h0 h1 h2 h3
  refine ⟨wordOfBytes b0 b1 b2 b3, ?fetch, ?number, bytesOfWord_wordOfBytes b0 b1 b2 b3⟩
  case fetch => rw [fetch_of_inRegion ha hr, readWord_of_bytes s.mem s.pc b0 b1 b2 b3 h0 h1 h2 h3]
  case number =>
    simp only [wordOfBytes, toNat_append_eq_add]
    lia

/-! ### The step, by what the fetch gives -/

/-- A fetched word that decodes is executed (R146). -/
theorem step_of_decode {s : State} {I : Word} {i : Instr} (hv : s.vmxEnabled = true)
    (hf : s.fetch = .next I) (hd : decodeWord I = .ok i) : step s = exec i s := by
  simp [step, hv, hf, hd]

/-- What the fetch refuses, the step refuses. -/
theorem step_of_fetch_refused {s : State} {r : Refusal} (hv : s.vmxEnabled = true)
    (hf : s.fetch = .refused r) : step s = .refused r := by
  simp [step, hv, hf]

theorem step_of_fetch_fault {s : State} {f : Fault} (hv : s.vmxEnabled = true)
    (hf : s.fetch = .fault f) : step s = .fault f := by
  simp [step, hv, hf]

/-- Only the fetch can fault. -/
theorem fetch_fault_of_step {s : State} {f : Fault} (h : step s = .fault f) : s.fetch = .fault f := by
  unfold step at h
  split at h
  · split at h
    next I hf =>
      split at h
      next i hd => simp [exec_eq] at h
      next => cases h
    next g hf =>
      obtain rfl := Host.Outcome.fault.inj h
      exact hf
    next => cases h
  · cases h

/-- Settles O39: the fetch reads the word of the four bytes. -/
theorem stepRunsTheDecodedInstruction : Obligations.StepRunsTheDecodedInstruction := by
  intro s b0 b1 b2 b3 i hv ha hr h0 h1 h2 h3 hd
  have hf := fetch_of_inRegion ha hr
  rw [readWord_of_bytes s.mem s.pc b0 b1 b2 b3 h0 h1 h2 h3] at hf
  exact step_of_decode hv hf hd

/-- Settles O41: the step asks the premise and then fetches, and the fetch's checks are made in order. -/
theorem whereAStepIsRefused : Obligations.WhereAStepIsRefused := by
  refine fun s => ⟨fun hv => ?disabled, fun hv ha => ?misaligned, fun hv ha hr he => ?ended,
    fun hv ha hr he => ?outside, fun I hv ha hr hw h h128 => ?notInScope⟩
  case disabled => simp [step, hv]
  case misaligned => exact step_of_fetch_refused hv (by simp [State.fetch, ha])
  case ended => exact step_of_fetch_refused hv (by simp [State.fetch, ha, hr, ← he])
  case outside => exact step_of_fetch_refused hv (by simp [State.fetch, ha, hr, he])
  case notInScope =>
    simp [step, hv, fetch_of_inRegion ha hr, hw, decodeWord_eq_notInScope h h128]

/-- Settles O42: a fault is the fetch's, which reads a word, and that read is one of two cases. -/
theorem onlyAnUnloadedByteFaults : Obligations.OnlyAnUnloadedByteFaults := by
  refine ⟨fun s f h => ?first, fun s hv ha hr ⟨x, hle, hlt, hnone⟩ => ?faults⟩
  case first =>
    have hf := fetch_fault_of_step h
    obtain ⟨-, hc⟩ | ⟨-, -, hc⟩ | ⟨-, -, -, hc⟩ | ⟨-, -, -, hc⟩ := fetch_cases s
    · simp [hc] at hf
    · rw [hc] at hf
      cases readWord_cases s.mem s.pc with
      | next I hI => simp [hI] at hf
      | fault x hx hfirst hlt =>
        obtain rfl : Fault.unloadedByte x = f := by simpa [hx] using hf
        exact ⟨x, rfl, hfirst.le, hlt, hfirst.unloaded, hfirst.loaded_before⟩
    · simp [hc] at hf
    · simp [hc] at hf
  case faults =>
    cases readWord_cases s.mem s.pc with
    | next I _ loaded =>
      have hsome := loaded (x - s.pc) (by lia)
      rw [Nat.add_sub_cancel' hle, hnone] at hsome
      cases hsome
    | fault x' hx => exact ⟨_, step_of_fetch_fault hv ((fetch_of_inRegion ha hr).trans hx)⟩

end Sys2Proof.Machine
end

section
/-! Runs (spec/70_reset_and_hazards.md sections 3 and 4). -/

namespace Sys2Proof.Machine

theorem kept_trans {s t u : State} (h : s.Kept t) (h' : t.Kept u) : s.Kept u where
  vscr := h'.vscr.trans h.vscr
  cr := h'.cr.trans h.cr
  xer := h'.xer.trans h.xer
  gpr n := (h'.gpr n).trans (h.gpr n)
  fpr n := (h'.fpr n).trans (h.fpr n)
  privMode := h'.privMode.trans h.privMode
  intMask := h'.intMask.trans h.intMask
  vmxEnabled := h'.vmxEnabled.trans h.vmxEnabled
  mem a := (h'.mem a).trans (h.mem a)
  region := h'.region.trans h.region
  cfg := h'.cfg.trans h.cfg

theorem kept_refl (s : State) : s.Kept s where
  vscr := rfl
  cr := rfl
  xer := rfl
  gpr _ := rfl
  fpr _ := rfl
  privMode := rfl
  intMask := rfl
  vmxEnabled := rfl
  mem _ := rfl
  region := rfl
  cfg := rfl

/-- A state that keeps the text reads the same words. -/
theorem readWord_of_kept {s t : State} (h : s.Kept t) (a : Nat) : t.mem.readWord a = s.mem.readWord a :=
  readWord_congr fun x _ _ => h.mem x

/-- Where a run from `base` is after `k` steps: at word `k`, with the rest of the state and the invariant
kept. -/
structure RunAt (s : State) (k : Nat) (t : State) : Prop where
  run : core.run k s = .next t
  pc : t.pc = (s.region.base + 4 * k) % 2 ^ s.cfg.pcw
  kept : s.Kept t
  inv : t.Inv

/-- Before the end of the region `pc` has not wrapped. -/
theorem RunAt.pc_eq {s t : State} {k : Nat} (h : RunAt s k t) (hinv : s.Inv) (hk : k < s.region.len / 4) :
    t.pc = s.region.base + 4 * k := by
  obtain ⟨-, -, hend⟩ := hinv.region
  rw [h.pc, Nat.mod_eq_of_lt (by lia)]

section Run

variable {s : State} (hinv : s.Inv) (hv : s.vmxEnabled = true) (hprog : s.ProgramInScope)

include hinv hv hprog

/-- At a word of a program in scope the step executes that word. -/
theorem RunAt.safe {t : State} {k : Nat} (h : RunAt s k t) (hk : k < s.region.len / 4) : Safe t := by
  obtain ⟨I, i, hI, hd⟩ := hprog k (by lia)
  have hpc := h.pc_eq hinv hk
  have hr : t.inRegion = true := by
    rw [inRegion_iff, h.kept.region]
    lia
  have hf : t.fetch = .next I := by
    rw [fetch_of_inRegion h.inv.pc_aligned hr, readWord_of_kept h.kept, hpc, hI]
  obtain ⟨u, hu⟩ := exists_exec_eq_next i t
  exact ⟨u, (step_of_decode (h.kept.vmxEnabled.trans hv) hf hd).trans hu⟩

/-- The first steps of a program in scope go on, by induction on their number. -/
theorem exists_runAt (hpc : s.pc = s.region.base) (k : Nat) (hk : k ≤ s.region.len / 4) :
    ∃ t, RunAt s k t := by
  induction k with
  | zero =>
    refine ⟨s, rfl, ?_, kept_refl s, hinv⟩
    rw [← hpc]
    exact (Nat.mod_eq_of_lt hinv.pc_lt).symm
  | succ k ih =>
    obtain ⟨t, ht⟩ := ih (by lia)
    obtain ⟨u, hu⟩ := ht.safe hinv hv hprog (by lia)
    obtain ⟨hkept, hupc, -⟩ := whatAStepCanChange t u hu
    refine ⟨u, (run_succ_last core k ht.run).trans hu, ?_, kept_trans ht.kept hkept,
      stepKeepsTheInvariant t u ht.inv hu⟩
    rw [hupc, ht.pc_eq hinv (by lia), ht.kept.cfg]
    rfl

end Run

/-- Settles O46: the run is at word `k` after `k` steps, and at the end after all. -/
theorem straightLineRunReachesItsEnd : Obligations.StraightLineRunReachesItsEnd := by
  intro s hinv hv hpc hprog
  refine ⟨?atEnd, fun k hk => ?before⟩
  case atEnd =>
    obtain ⟨t, ht⟩ := exists_runAt hinv hv hprog hpc _ le_rfl
    obtain ⟨-, hlen, -⟩ := hinv.region
    refine ⟨t, ht.run, ?_, ht.kept⟩
    rw [ht.pc, Nat.mul_div_cancel' (Nat.dvd_of_mod_eq_zero hlen), State.endPc]
  case before =>
    obtain ⟨t, ht⟩ := exists_runAt hinv hv hprog hpc k (by lia)
    exact ⟨t, ht.run, ht.pc_eq hinv hk, ht.safe hinv hv hprog hk⟩

/-- Settles O47: the first instruction leaves `pc` at the second word and the text as it was. -/
theorem backToBackInstructions : Obligations.BackToBackInstructions := by
  intro s t I J i j hinv hv hr hlen htop hI hJ hi hj hexec
  have hstep : step s = .next t :=
    (step_of_decode hv ((fetch_of_inRegion hinv.pc_aligned hr).trans hI) hi).trans hexec
  obtain ⟨hkept, htpc, -⟩ := whatAStepCanChange s t hstep
  have htpc' : t.pc = s.pc + 4 := by rw [htpc, Nat.mod_eq_of_lt (by lia)]
  have htinv := stepKeepsTheInvariant s t hinv hstep
  have htr : t.inRegion = true := by
    rw [inRegion_iff] at hr ⊢
    rw [hkept.region]
    lia
  have htf : t.fetch = .next J := by
    rw [fetch_of_inRegion htinv.pc_aligned htr, readWord_of_kept hkept, htpc', hJ]
  have hrun : core.run 2 s = step t := run_succ_last core 1 (run_succ core 0 hstep)
  exact hrun.trans (step_of_decode (hkept.vmxEnabled.trans hv) htf hj)

end Sys2Proof.Machine
end

section
/-! Loading a program, and placing a word (spec/70_reset_and_hazards.md section 2). -/

namespace Sys2Proof.Machine

/-- Bytes above the ones written are as before. -/
theorem read_writeBytes_of_le (m : Memory) (a a' : Nat) (bs : List Byte) (h : a + bs.length ≤ a') :
    (m.writeBytes a bs).read a' = m.read a' := by
  induction bs generalizing m a with
  | nil => rfl
  | cons b bs ih =>
    rw [List.length_cons] at h
    rw [Memory.writeBytes, ih _ _ (by lia), read_write_ne _ _ _ _ (by lia)]

/-- Bytes outside a word that is written are as before. -/
theorem read_writeWord_of_outside (m : Memory) (a a' : Nat) (I : Word) (h : a' < a ∨ a + 4 ≤ a') :
    (m.writeWord a I).read a' = m.read a' := by
  rcases h with h | h
  · exact read_writeBytes_of_lt m a a' _ h
  · exact read_writeBytes_of_le m a a' _ h

theorem read_writeWords_of_outside (m : Memory) (a a' : Nat) (ws : List Word)
    (h : a' < a ∨ a + 4 * ws.length ≤ a') : (m.writeWords a ws).read a' = m.read a' := by
  induction ws generalizing m a with
  | nil => rfl
  | cons I ws ih =>
    rw [List.length_cons] at h
    rw [Memory.writeWords, ih _ _ (by lia), read_writeWord_of_outside _ _ _ _ (by lia)]

/-- Word `k` of a program is read at its place: the words written later lie above it. -/
theorem readWord_writeWords (m : Memory) (a k : Nat) (ws : List Word) (I : Word) (h : ws[k]? = some I) :
    (m.writeWords a ws).readWord (a + 4 * k) = .next I := by
  induction ws generalizing m a k with
  | nil => cases h
  | cons J ws ih =>
    cases k with
    | zero =>
      obtain rfl : J = I := by simpa using h
      rw [← readWord_writeWord m a J]
      exact readWord_congr fun x _ hx => read_writeWords_of_outside _ _ _ _ (.inl hx)
    | succ k =>
      rw [show a + 4 * (k + 1) = a + 4 + 4 * k by lia]
      exact ih _ _ k h

/-- Settles O48. -/
theorem loadedProgramReadsBack : Obligations.LoadedProgramReadsBack := fun m base ws =>
  ⟨fun k I h => readWord_writeWords m base k ws I h, fun a h => read_writeWords_of_outside m base a ws h⟩

/-! ### A placed word -/

/-- The addresses listed after bytes are written are the ones before and those of the bytes. -/
theorem mem_writeBytes {m : Memory} {a : Nat} {bs : List Byte} {c : Host.Cell}
    (h : c ∈ m.writeBytes a bs) : c.1 < a + bs.length ∨ c ∈ m := by
  induction bs generalizing m a with
  | nil => exact .inr h
  | cons b bs ih =>
    rw [List.length_cons]
    rcases ih h with hlt | hmem
    · exact .inl (by lia)
    · exact (mem_write m a b c hmem).imp_left (by lia)

/-- Bytes below a bound stay below it where the word written does. -/
theorem writeWord_lt {m : Memory} {a bound : Nat} (I : Word) (hm : ∀ c ∈ m, c.1 < bound)
    (ha : a + 4 ≤ bound) : ∀ c ∈ m.writeWord a I, c.1 < bound := by
  intro c hc
  rcases mem_writeBytes hc with hlt | hmem
  · exact lt_of_lt_of_le hlt ha
  · exact hm c hmem

/-- An aligned `pc` has room for a word below the end of the address space. -/
theorem pc_add_four_le {s : State} (h : s.Inv) : s.pc + 4 ≤ 2 ^ s.cfg.pcw := by
  obtain ⟨q, hq⟩ := four_dvd_two_pow_pcw h.cfg
  have hlt := h.pc_lt
  have hpc := h.pc_aligned
  lia

/-- Placing a word writes it at `pc`, and puts a region of that word around a `pc` that lies in none. -/
theorem placeWord_eq (s : State) (I : Word) : ∃ r : Region,
    s.placeWord I = { s with mem := s.mem.writeWord s.pc I, region := r } ∧
      (r = s.region ∧ s.inRegion = true ∨ r = ⟨s.pc, 4⟩) := by
  unfold State.placeWord
  split
  next hr => exact ⟨s.region, rfl, .inl ⟨rfl, hr⟩⟩
  next => exact ⟨⟨s.pc, 4⟩, rfl, .inr rfl⟩

/-- A word that is placed is fetched next, and the invariant is kept. -/
theorem inv_and_fetch_placeWord {s : State} (h : s.Inv) (I : Word) :
    (s.placeWord I).Inv ∧ (s.placeWord I).fetch = .next I := by
  obtain ⟨r, ht, hr⟩ := placeWord_eq s I
  have hroom := pc_add_four_le h
  have hregion : r.Wf s.cfg.pcw := by
    rcases hr with ⟨rfl, -⟩ | rfl
    · exact h.region
    · exact ⟨h.pc_aligned, Nat.mod_self 4, hroom⟩
  have hinside : (s.placeWord I).inRegion = true := by
    rw [ht, inRegion_iff]
    rcases hr with ⟨rfl, hin⟩ | rfl
    · exact (inRegion_iff s).mp hin
    · exact ⟨le_rfl, le_rfl⟩
  rw [ht] at hinside ⊢
  refine ⟨{ h with
    region := hregion
    mem := writeWord_wf _ _ _ h.mem
    mem_lt := writeWord_lt I h.mem_lt hroom }, ?_⟩
  refine (fetch_of_inRegion ?_ hinside).trans (readWord_writeWord _ _ _)
  exact h.pc_aligned

/-- What the decoder reads of a table word is what the word decodes to. -/
theorem decodeWord_of_decodeTableWord {w : Nat} {i : Instr} (h : decodeTableWord 32 w = some i) :
    decodeWord (BitVec.ofNat 32 (w % 2 ^ 32)) = .ok i := by
  rw [decodeTableWord, ← List.append_nil (bytesOfWord _), decode_bytesOfWord_append] at h
  cases hd : decodeWord (BitVec.ofNat 32 (w % 2 ^ 32)) with
  | error e =>
    rw [hd] at h
    cases h
  | ok j =>
    rw [hd] at h
    exact congrArg Except.ok (Option.some.inj h)

/-- Settles O49: the placed word is fetched, and what was not placed is as it was. -/
theorem placedWordIsTheNextToRun : Obligations.PlacedWordIsTheNextToRun := by
  intro s w i hinv hv hw hi
  have hd := decodeWord_of_decodeTableWord hi
  obtain ⟨htinv, hfetch⟩ := inv_and_fetch_placeWord hinv (BitVec.ofNat 32 (w % 2 ^ 32))
  obtain ⟨r, ht, -⟩ := placeWord_eq s (BitVec.ofNat 32 (w % 2 ^ 32))
  have hvt : (s.placeWord (BitVec.ofNat 32 (w % 2 ^ 32))).vmxEnabled = true := by rw [ht]; exact hv
  have hstep := step_of_decode hvt hfetch hd
  rw [Nat.mod_eq_of_lt hw] at hd
  refine ⟨htinv, ?_⟩
  unfold State.withFetchWord
  rw [ht] at hstep ⊢
  exact ⟨rfl, fun _ => rfl, rfl, rfl, rfl, fun _ => rfl, fun _ => rfl, rfl, rfl, rfl, rfl, rfl, hd, hstep⟩

end Sys2Proof.Machine
end

section
/-! Patterns by their fields (spec/40_lane_numerics.md section 1): a pattern is its sign, exponent and
fraction, and the class is read from these. -/

namespace Sys2Proof.Machine

/-! ### The fields of a pattern -/

theorem expField_eq_div (w : Lane) : expField w = w.toNat / 2 ^ 23 % 2 ^ 8 := by
  rw [expField, BitVec.extractLsb'_toNat, Nat.shiftRight_eq_div_pow]

theorem fracField_eq_mod (w : Lane) : fracField w = w.toNat % 2 ^ 23 := by
  rw [fracField, BitVec.extractLsb'_toNat, Nat.shiftRight_zero]

theorem toNat_signBit (w : Lane) : (signBit w).toNat = w.toNat / 2 ^ 31 := by
  have hw : w.toNat < 2 ^ 32 := w.isLt
  rw [signBit, BitVec.getLsbD, Nat.testBit_eq_decide_div_mod_eq]
  by_cases h : w.toNat / 2 ^ 31 % 2 = 1
  · rw [decide_eq_true h, Bool.toNat_true]
    omega
  · rw [decide_eq_false h, Bool.toNat_false]
    omega

theorem expField_lt (w : Lane) : expField w < 2 ^ 8 := BitVec.isLt _

theorem fracField_lt (w : Lane) : fracField w < 2 ^ 23 := BitVec.isLt _

/-- A pattern's number is the sum of its scaled fields (R80). -/
theorem toNat_eq_fields (w : Lane) :
    w.toNat = (signBit w).toNat * 2 ^ 31 + expField w * 2 ^ 23 + fracField w := by
  rw [toNat_signBit, expField_eq_div, fracField_eq_mod]
  have hw : w.toNat < 2 ^ 32 := w.isLt
  omega

theorem toNat_pack (s : Bool) (e f : Nat) :
    (pack s e f).toNat = s.toNat * 2 ^ 31 + e % 2 ^ 8 * 2 ^ 23 + f % 2 ^ 23 := by
  simp only [pack, toNat_append_eq_add, BitVec.toNat_ofNat, BitVec.toNat_ofBool]
  omega

/-- A pattern is put together again from its fields. -/
theorem pack_fields (w : Lane) : pack (signBit w) (expField w) (fracField w) = w := by
  apply BitVec.eq_of_toNat_eq
  rw [toNat_pack, Nat.mod_eq_of_lt (expField_lt w), Nat.mod_eq_of_lt (fracField_lt w),
    ← toNat_eq_fields]

@[simp] theorem signBit_pack (s : Bool) (e f : Nat) : signBit (pack s e f) = s := by
  simp only [signBit, pack, BitVec.getLsbD_append]
  simp

theorem expField_pack (s : Bool) {e : Nat} (f : Nat) (he : e < 256) : expField (pack s e f) = e := by
  rw [expField_eq_div, toNat_pack]
  omega

theorem fracField_pack (s : Bool) (e : Nat) {f : Nat} (hf : f < 2 ^ 23) :
    fracField (pack s e f) = f := by
  rw [fracField_eq_mod, toNat_pack]
  omega

/-! ### The classes, by the fields (R82) -/

theorem classOf_eq_zero_iff (w : Lane) : classOf w = .zero ↔ expField w = 0 ∧ fracField w = 0 := by
  unfold classOf
  split_ifs <;> simp [*]

theorem classOf_eq_denormal_iff (w : Lane) :
    classOf w = .denormal ↔ expField w = 0 ∧ fracField w ≠ 0 := by
  unfold classOf
  split_ifs <;> simp [*]

theorem classOf_eq_normal_iff (w : Lane) : classOf w = .normal ↔ 1 ≤ expField w ∧ expField w ≤ 254 := by
  have hlt := expField_lt w
  unfold classOf
  split_ifs <;> simp <;> omega

theorem classOf_eq_inf_iff (w : Lane) : classOf w = .inf ↔ expField w = 255 ∧ fracField w = 0 := by
  unfold classOf
  split_ifs <;> simp [*]

theorem classOf_eq_nan_iff (w : Lane) : classOf w = .nan ↔ expField w = 255 ∧ fracField w ≠ 0 := by
  unfold classOf
  split_ifs <;> simp [*]

theorem isFinite_iff (w : Lane) : isFinite w = true ↔ classOf w ≠ .inf ∧ classOf w ≠ .nan := by
  simp [isFinite]

theorem isFinite_iff_expField_lt (w : Lane) : isFinite w = true ↔ expField w < 255 := by
  have hlt := expField_lt w
  rw [isFinite_iff, ne_eq, ne_eq, classOf_eq_inf_iff, classOf_eq_nan_iff]
  omega

/-- Three operands of which none is an infinity or a NaN. -/
structure FiniteOperands (a c b : Lane) : Prop where
  a : isFinite a = true
  c : isFinite c = true
  b : isFinite b = true

@[simp] theorem classOf_infLane (s : Bool) : classOf (infLane s) = .inf := by
  cases s <;> decide

/-- An infinity is known by its sign. -/
theorem eq_infLane {w : Lane} (h : classOf w = .inf) : w = infLane (signBit w) := by
  obtain ⟨he, hf⟩ := (classOf_eq_inf_iff w).mp h
  rw [← pack_fields w, he, hf, signBit_pack, infLane]

/-- A zero is known by its sign. -/
theorem eq_zeroLane {w : Lane} (h : classOf w = .zero) : w = zeroLane (signBit w) := by
  obtain ⟨he, hf⟩ := (classOf_eq_zero_iff w).mp h
  rw [← pack_fields w, he, hf, signBit_pack, zeroLane]

/-- A pattern that its class and sign determine is one of two. -/
theorem eq_or_eq_of_signBit {f : Bool → Lane} {c : LaneClass} (hf : ∀ s, classOf (f s) = c)
    (heq : ∀ w, classOf w = c → w = f (signBit w)) (w : Lane) :
    classOf w = c ↔ w = f false ∨ w = f true := by
  constructor
  · intro h
    rw [heq w h]
    cases signBit w
    · exact .inl rfl
    · exact .inr rfl
  · rintro (rfl | rfl)
    · exact hf false
    · exact hf true

/-- Settles O12: zeros and infinities are known by their sign, and the number of a denormal is the sum of its
fields. -/
theorem laneClassesByPattern : Obligations.LaneClassesByPattern := by
  intro w
  refine ⟨pack_fields w, eq_or_eq_of_signBit classOf_zeroLane (fun _ => eq_zeroLane) w, ?denormal,
    classOf_eq_normal_iff w, eq_or_eq_of_signBit classOf_infLane (fun _ => eq_infLane) w,
    classOf_eq_nan_iff w⟩
  case denormal =>
    have hfields := toNat_eq_fields w
    have hsign := Bool.toNat_le (signBit w)
    have hexp := expField_lt w
    have hfrac := fracField_lt w
    rw [classOf_eq_denormal_iff]
    omega

end Sys2Proof.Machine
end

section
/-! The flush, NaNs and values (spec/40_lane_numerics.md sections 1 and 2, R83, R84, R96). -/

namespace Sys2Proof.Machine

/-- The zero of a pattern's sign is its sign bit alone. -/
theorem zeroLane_signBit (w : Lane) : zeroLane (signBit w) = w &&& 0x80000000#32 := by
  have mask : 0x80000000#32 = BitVec.allOnes 1 ++ 0#8 ++ 0#23 := by decide
  conv_rhs => rw [← pack_fields w, pack, mask]
  change _ = ((_ ++ _ ++ _ : BitVec (1 + 8 + 23)) &&& _)
  rw [BitVec.and_append, BitVec.and_append, BitVec.and_allOnes, BitVec.and_zero, BitVec.and_zero]
  rfl

theorem classOf_flush_ne_denormal (w : Lane) : classOf (flush w) ≠ .denormal := by
  by_cases h : classOf w = .denormal
  · rw [flush_of_denormal h, classOf_zeroLane]
    decide
  · rwa [flush_of_ne_denormal h]

/-- Settles O13: a denormal becomes the zero of its sign, which is no denormal. -/
theorem flushKeepsOnlyTheSign : Obligations.FlushKeepsOnlyTheSign := fun w =>
  ⟨fun h => (flush_of_denormal h).trans (zeroLane_signBit w), flush_of_ne_denormal,
    classOf_flush_ne_denormal w⟩

@[simp] theorem flush_flush (w : Lane) : flush (flush w) = flush w :=
  flush_of_ne_denormal (classOf_flush_ne_denormal w)

@[simp] theorem flush_zeroLane (s : Bool) : flush (zeroLane s) = zeroLane s :=
  flush_of_ne_denormal (by simp)

/-- The flush makes no infinity and no NaN of a finite pattern. -/
theorem isFinite_flush {w : Lane} (h : isFinite w = true) : isFinite (flush w) = true := by
  by_cases hd : classOf w = .denormal
  · simp [isFinite_iff, flush_of_denormal hd]
  · rwa [flush_of_ne_denormal hd]

theorem FiniteOperands.flush {a c b : Lane} (h : FiniteOperands a c b) :
    FiniteOperands (flush a) (flush c) (flush b) :=
  ⟨isFinite_flush h.a, isFinite_flush h.c, isFinite_flush h.b⟩

/-! ### NaNs and infinities -/

/-- Settles O26: a NaN stands for itself, and any other draw is made one. -/
theorem nanDrawIsAnyNan : Obligations.NanDrawIsAnyNan := by
  refine fun w => ⟨?_, fun h => ⟨w, if_pos h⟩⟩
  rintro ⟨draw, rfl⟩
  unfold nanOf
  split
  · assumption
  · exact classOf_or_quiet draw

/-! ### Values (R83) -/

theorem abs_valUnits (w : Lane) : |valUnits w| = (magUnits w : ℤ) := by
  unfold valUnits
  split <;> simp

theorem valUnits_eq_zero_iff (w : Lane) : valUnits w = 0 ↔ classOf w = .zero := by
  rw [← abs_eq_zero, abs_valUnits, classOf_eq_zero_iff, Nat.cast_eq_zero, magUnits]
  split
  next he => simp [he]
  next he => simp [he]

/-- The significand of a normal pattern, scaled by its exponent, in units of `2^-149`. -/
theorem normal_scale (e f : ℕ) (he : e ≠ 0) :
    (2 : ℚ) ^ ((e : ℤ) - 127) * (1 + (f : ℚ) / 2 ^ 23) * 2 ^ 149 = (2 ^ 23 + f) * 2 ^ (e - 1) := by
  have hexp : (e : ℤ) - 127 = ((e - 1 : ℕ) : ℤ) - 126 := by omega
  rw [hexp, zpow_sub₀ (by norm_num), zpow_natCast]
  norm_num
  ring

/-- Settles O14: by class, and within a class by sign. -/
theorem unitsAreTheValues : Obligations.UnitsAreTheValues := by
  intro w hw
  obtain ⟨hinf, hnan⟩ := (isFinite_iff w).mp hw
  have hsign : ((valUnits w : ℤ) : ℚ) = signQ (signBit w) * magUnits w := by
    unfold valUnits signQ
    split <;> simp
  cases hc : classOf w with
  | zero => simp [valQ, hc, (valUnits_eq_zero_iff w).mpr hc]
  | denormal =>
    obtain ⟨he, -⟩ := (classOf_eq_denormal_iff w).mp hc
    rw [hsign, magUnits, if_pos he]
    simp only [valQ, hc]
    norm_num
    ring
  | normal =>
    obtain ⟨he, -⟩ := (classOf_eq_normal_iff w).mp hc
    rw [hsign, magUnits, if_neg (by omega)]
    simp only [valQ, hc]
    rw [mul_assoc (signQ _), mul_assoc (signQ _), normal_scale _ _ (by omega)]
    push_cast
    ring
  | inf => exact absurd hc hinf
  | nan => exact absurd hc hnan

end Sys2Proof.Machine
end

section
/-! Rounding to the nearest multiple of a step, a tie to the even one (spec/40_lane_numerics.md R92). -/

namespace Sys2Proof.Machine

/-- `n * d` is a multiple of `d` nearest to `m`, and `n` is even where `m` is halfway between two. -/
structure NearestEven (m d n : ℕ) : Prop where
  le_add_half : 2 * (n * d) ≤ 2 * m + d
  add_half_ge : 2 * m ≤ 2 * (n * d) + d
  even_of_tie : 2 * (n * d) = 2 * m + d ∨ 2 * m = 2 * (n * d) + d → n % 2 = 0

/-- The multiple below is the nearest when the rest is at most half a step. -/
theorem NearestEven.of_rest_below {m d n r : ℕ} (hm : n * d + r = m) (hr : 2 * r ≤ d)
    (heven : 2 * r = d → n % 2 = 0) : NearestEven m d n where
  le_add_half := by lia
  add_half_ge := by lia
  even_of_tie h := heven (by lia)

/-- The multiple above is the nearest when it is at most half a step away. -/
theorem NearestEven.of_rest_above {m d n r : ℕ} (hm : m + r = n * d) (hr : 2 * r ≤ d)
    (heven : 2 * r = d → n % 2 = 0) : NearestEven m d n where
  le_add_half := by lia
  add_half_ge := by lia
  even_of_tie h := heven (by lia)

theorem nearestEven_rneShift (m k : ℕ) : NearestEven m (2 ^ k) (rneShift m k) := by
  have hm : m / 2 ^ k * 2 ^ k + m % 2 ^ k = m := Nat.div_add_mod' m (2 ^ k)
  have hr := Nat.mod_lt m (Nat.two_pow_pos k)
  have habove : m + (2 ^ k - m % 2 ^ k) = (m / 2 ^ k + 1) * 2 ^ k := by
    rw [Nat.add_one_mul]
    lia
  dsimp only [rneShift]
  split_ifs with hlow hhigh
  · exact .of_rest_below hm hlow.le fun htie => absurd htie hlow.ne
  · exact .of_rest_above habove (by lia) fun htie => by lia
  · rcases Nat.mod_two_eq_zero_or_one (m / 2 ^ k) with hq | hq <;> rw [hq]
    · exact .of_rest_below hm (by lia) fun _ => hq
    · exact .of_rest_above habove (by lia) fun _ => Nat.succ_mod_two_eq_zero_iff.mpr hq

namespace NearestEven

variable {m d n : ℕ}

theorem le_of_mul_le (h : NearestEven m d n) (hd : 0 < d) {q : ℕ} (hq : q * d ≤ m) : q ≤ n := by
  by_contra hlt
  have hmul : (n + 1) * d ≤ q * d := Nat.mul_le_mul_right d (by lia)
  have hsucc : (n + 1) * d = n * d + d := by ring
  have hge := h.add_half_ge
  lia

theorem le_of_le_mul (h : NearestEven m d n) (hd : 0 < d) {q : ℕ} (hq : m ≤ q * d) : n ≤ q := by
  by_contra hlt
  have hmul : (q + 1) * d ≤ n * d := Nat.mul_le_mul_right d (by lia)
  have hsucc : (q + 1) * d = q * d + d := by ring
  have hle := h.le_add_half
  lia

/-- An even number is reached half a step below itself. -/
theorem le_iff_of_even (h : NearestEven m d n) (hd : 0 < d) {q : ℕ} (hq : q % 2 = 0) :
    q ≤ n ↔ 2 * (q * d) ≤ 2 * m + d := by
  have hle := h.le_add_half
  have hge := h.add_half_ge
  constructor
  · intro hqn
    have hmul : q * d ≤ n * d := Nat.mul_le_mul_right d hqn
    lia
  · intro hhalf
    by_contra hlt
    have hmul : (n + 1) * d ≤ q * d := Nat.mul_le_mul_right d (by lia)
    have hsucc : (n + 1) * d = n * d + d := by ring
    have heven := h.even_of_tie (.inr (by lia))
    have hmul' : (n + 2) * d ≤ q * d := Nat.mul_le_mul_right d (by lia)
    have hsucc' : (n + 2) * d = n * d + 2 * d := by ring
    lia

theorem add_le_of_lt (h : NearestEven m d n) {q : ℕ} (hq : q < n) : q * d + n * d ≤ 2 * m := by
  have hmul : (q + 1) * d ≤ n * d := Nat.mul_le_mul_right d hq
  rw [Nat.add_one_mul] at hmul
  have hle := h.le_add_half
  lia

theorem le_add_of_lt (h : NearestEven m d n) {q : ℕ} (hq : n < q) : 2 * m ≤ q * d + n * d := by
  have hmul : (n + 1) * d ≤ q * d := Nat.mul_le_mul_right d hq
  rw [Nat.add_one_mul] at hmul
  have hge := h.add_half_ge
  lia

/-- No multiple is nearer. -/
theorem dist_le (h : NearestEven m d n) (q : ℕ) :
    |((n * d : ℕ) - m : ℤ)| ≤ |((q * d : ℕ) - m : ℤ)| := by
  rcases Nat.lt_trichotomy q n with hq | rfl | hq
  · have hmul : q * d ≤ n * d := Nat.mul_le_mul_right d hq.le
    have hsum := h.add_le_of_lt hq
    rw [abs_sub_comm ((q * d : ℕ) : ℤ)]
    exact abs_le_abs (by lia) (by lia)
  · exact le_rfl
  · have hmul : n * d ≤ q * d := Nat.mul_le_mul_right d hq.le
    have hsum := h.le_add_of_lt hq
    exact abs_le_abs (by lia) (by lia)

/-- Where another multiple is as near, the number is even. -/
theorem even_of_dist_eq (h : NearestEven m d n) (hd : 0 < d) {q : ℕ} (hq : q ≠ n)
    (heq : |((n * d : ℕ) - m : ℤ)| = |((q * d : ℕ) - m : ℤ)|) : n % 2 = 0 := by
  have hle := h.le_add_half
  have hge := h.add_half_ge
  rcases abs_eq_abs.mp heq with hsame | hhalf
  · have hmul : n * d = q * d := by lia
    exact absurd (Nat.eq_of_mul_eq_mul_right hd hmul).symm hq
  rcases Nat.lt_or_gt_of_ne hq with hq | hq
  · have hmul : (q + 1) * d ≤ n * d := Nat.mul_le_mul_right d hq
    rw [Nat.add_one_mul] at hmul
    exact h.even_of_tie (.inl (by lia))
  · have hmul : (n + 1) * d ≤ q * d := Nat.mul_le_mul_right d hq
    rw [Nat.add_one_mul] at hmul
    exact h.even_of_tie (.inr (by lia))

end NearestEven

/-- A multiple is rounded to itself. -/
theorem rneShift_mul_two_pow (n k : ℕ) : rneShift (n * 2 ^ k) k = n := by
  simp [rneShift]

end Sys2Proof.Machine
end

section
/-! The rounding procedure of the machine, by the place of the leading bit (spec/40_lane_numerics.md R92), and
the threshold of overflow (R93). -/

namespace Sys2Proof.Machine

/-- From `2^-126` on, the leading bit's place `172 + j` gives the step `2^(149 + j)`. -/
theorem round32_of_log2_eq {N : ℤ} {j : ℕ} (hL : N.natAbs.log2 = 172 + j) :
    round32 N =
      if rneShift N.natAbs (149 + j) = 2 ^ 24 then
        if 254 < j + 2 then infLane (decide (N < 0)) else pack (decide (N < 0)) (j + 2) 0
      else if 254 < j + 1 then infLane (decide (N < 0))
      else pack (decide (N < 0)) (j + 1) (rneShift N.natAbs (149 + j) - 2 ^ 23) := by
  have h23 : 172 + j - 23 = 149 + j := by lia
  have h170 : 172 + j - 170 = j + 2 := by lia
  have h171 : 172 + j - 171 = j + 1 := by lia
  simp only [round32, hL, h23, h170, h171, Nat.le_add_right, if_true]
  split_ifs <;> rfl

/-- Below `2^-126` the step is `2^149`, that of the denormals. -/
theorem round32_of_log2_lt {N : ℤ} (hL : N.natAbs.log2 < 172) :
    round32 N = if rneShift N.natAbs 149 = 2 ^ 23 then pack (decide (N < 0)) 1 0
      else pack (decide (N < 0)) 0 (rneShift N.natAbs 149) := by
  simp only [round32, if_neg (Nat.not_le.mpr hL)]

theorem add_le_log2_iff {m : ℕ} (hm : m ≠ 0) (a b : ℕ) : a + b ≤ m.log2 ↔ 2 ^ a * 2 ^ b ≤ m := by
  rw [Nat.le_log2 hm, pow_add]

/-- The significand of a sum with its leading bit at `172 + j` has 24 bits, or is the next power of 2. -/
theorem rneShift_bounds {m j : ℕ} (hm : m ≠ 0) (hL : m.log2 = 172 + j) :
    2 ^ 23 ≤ rneShift m (149 + j) ∧ rneShift m (149 + j) ≤ 2 ^ 24 := by
  have hnear := nearestEven_rneShift m (149 + j)
  have hpos := Nat.two_pow_pos (149 + j)
  have hlow : 2 ^ (172 + j) ≤ m := (Nat.le_log2 hm).mp hL.ge
  have hhigh : m < 2 ^ (173 + j) := (Nat.log2_lt hm).mp (by lia)
  rw [show 172 + j = 23 + (149 + j) by lia, pow_add] at hlow
  rw [show 173 + j = 24 + (149 + j) by lia, pow_add] at hhigh
  exact ⟨hnear.le_of_mul_le hpos hlow, hnear.le_of_le_mul hpos hhigh.le⟩

/-- A denormal significand is below `2^23`, or is that of the smallest normal. -/
theorem rneShift_le_of_log2_lt {m : ℕ} (hm : m ≠ 0) (hL : m.log2 < 172) : rneShift m 149 ≤ 2 ^ 23 := by
  have hhigh : m < 2 ^ 172 := (Nat.log2_lt hm).mp hL
  rw [show 172 = 23 + 149 by rfl, pow_add] at hhigh
  exact (nearestEven_rneShift m 149).le_of_le_mul (Nat.two_pow_pos 149) hhigh.le

/-! ### The threshold of R93 -/

/-- An even multiple is reached half a step below itself, `c` halves of a step being the odd number below. -/
theorem even_le_rneShift_iff (m k : ℕ) {q c : ℕ} (hq : q % 2 = 0) (hc : 2 * q = c + 1) :
    q ≤ rneShift m (k + 1) ↔ c * 2 ^ k ≤ m := by
  have hmul : 2 * (q * 2 ^ (k + 1)) = 2 * (c * 2 ^ k) + 2 ^ (k + 1) := by
    calc 2 * (q * 2 ^ (k + 1))
      _ = 2 * q * 2 ^ (k + 1) := by ring
      _ = 2 * (c * 2 ^ k) + 2 ^ (k + 1) := by rw [hc]; ring
  rw [(nearestEven_rneShift m (k + 1)).le_iff_of_even (Nat.two_pow_pos _) hq, hmul]
  lia

/-- A sum with its leading bit at 425 is rounded up to `2^128` exactly from the threshold on, in units of
`2^-298`: halfway between the largest significand, which is odd, and the next. -/
theorem rneShift_eq_top_iff {m : ℕ} (hm : m ≠ 0) (hL : m.log2 = 172 + 253) :
    rneShift m (149 + 253) = 2 ^ 24 ↔ (2 ^ 25 - 1) * 2 ^ 401 ≤ m := by
  obtain ⟨-, hle⟩ := rneShift_bounds hm hL
  have hiff := even_le_rneShift_iff m 401 (q := 2 ^ 24) (c := 2 ^ 25 - 1) (by decide) (by decide)
  rw [← hiff]
  exact ⟨fun h => h.ge, fun h => le_antisymm hle h⟩

theorem ne_zero_of_threshold_le {m : ℕ} (h : (2 ^ 25 - 1) * 2 ^ 401 ≤ m) : m ≠ 0 := by
  have hpos : 0 < (2 ^ 25 - 1) * 2 ^ 401 := by positivity
  exact Nat.ne_zero_of_lt (Nat.lt_of_lt_of_le hpos h)

/-- Overflow gives the infinity of the sign (R93, D12). -/
theorem round32_of_threshold_le {N : ℤ} (h : (2 ^ 25 - 1) * 2 ^ 401 ≤ N.natAbs) :
    round32 N = infLane (decide (N < 0)) := by
  have hm := ne_zero_of_threshold_le h
  have hlog : 24 + 401 ≤ N.natAbs.log2 := by
    rw [add_le_log2_iff hm]
    exact le_trans (Nat.mul_le_mul_right (2 ^ 401) (by decide)) h
  obtain ⟨j, hj⟩ := Nat.exists_eq_add_of_le (show 172 ≤ N.natAbs.log2 from le_trans (by decide) hlog)
  have hle : 253 ≤ j := Nat.le_of_add_le_add_left (a := 172) (hlog.trans hj.le)
  rw [round32_of_log2_eq hj]
  split
  next => exact if_pos (Nat.add_le_add_right hle 2)
  next htop =>
    have hne : 253 ≠ j := by
      rintro rfl
      exact htop ((rneShift_eq_top_iff hm hj).mpr h)
    exact if_pos (Nat.succ_lt_succ (lt_of_le_of_ne hle hne))

/-- What a sum below the threshold is rounded to, in units of `2^-149`: a finite pattern of its sign whose
magnitude is a multiple of a step `2^j`, `rneShift` saying which; where the step is more than that of the
denormals the sum reaches the lowest significand, and the fraction is even when the multiple is (R92). -/
structure RoundedBelow (N : ℤ) (r : Lane) (j : ℕ) : Prop where
  finite : isFinite r = true
  sign : signBit r = decide (N < 0)
  mag : magUnits r = rneShift N.natAbs (149 + j) * 2 ^ j
  parity : fracField r % 2 = rneShift N.natAbs (149 + j) % 2
  leading : j = 0 ∨ 2 ^ (172 + j) ≤ N.natAbs

/-- The magnitude of a pattern with a hidden bit. -/
theorem magUnits_pack (s : Bool) {j f : ℕ} (hj : j + 1 < 256) (hf : f < 2 ^ 23) :
    magUnits (pack s (j + 1) f) = (2 ^ 23 + f) * 2 ^ j := by
  rw [magUnits, expField_pack s f hj, fracField_pack s _ hf, if_neg (by lia), Nat.add_sub_cancel]

theorem magUnits_pack_zero (s : Bool) {f : ℕ} (hf : f < 2 ^ 23) : magUnits (pack s 0 f) = f := by
  rw [magUnits, expField_pack s f (by decide), fracField_pack s _ hf, if_pos rfl]

theorem isFinite_pack (s : Bool) {e : ℕ} (f : ℕ) (he : e < 255) : isFinite (pack s e f) = true := by
  rw [isFinite_iff_expField_lt, expField_pack s f (by lia)]
  exact he

theorem roundedBelow_of_log2_lt {N : ℤ} (hN : N.natAbs ≠ 0) (hL : N.natAbs.log2 < 172) :
    RoundedBelow N (round32 N) 0 := by
  have hle := rneShift_le_of_log2_lt hN hL
  rw [round32_of_log2_lt hL]
  split
  next htop =>
    exact {
      finite := isFinite_pack _ _ (by decide)
      sign := signBit_pack _ _ _
      mag := by rw [magUnits_pack _ (j := 0) (by decide) (by decide), htop, add_zero]
      parity := by rw [fracField_pack _ _ (by decide), htop]; decide
      leading := .inl rfl }
  next htop =>
    have hlt : rneShift N.natAbs 149 < 2 ^ 23 := by lia
    exact {
      finite := isFinite_pack _ _ (by decide)
      sign := signBit_pack _ _ _
      mag := by rw [magUnits_pack_zero _ hlt, pow_zero, mul_one]
      parity := by rw [fracField_pack _ _ hlt]
      leading := .inl rfl }

theorem roundedBelow_of_log2_eq {N : ℤ} {j : ℕ} (hN : N.natAbs ≠ 0) (hL : N.natAbs.log2 = 172 + j)
    (hlt : N.natAbs < (2 ^ 25 - 1) * 2 ^ 401) : RoundedBelow N (round32 N) j := by
  obtain ⟨hge, hle⟩ := rneShift_bounds hN hL
  have hleading : 2 ^ (172 + j) ≤ N.natAbs := (Nat.le_log2 hN).mp hL.ge
  have hj : j ≤ 253 := by
    have hlog : ¬ 25 + 401 ≤ N.natAbs.log2 := by
      rw [add_le_log2_iff hN, not_le]
      exact hlt.trans_le (Nat.mul_le_mul_right _ (by decide))
    rw [hL] at hlog
    exact Nat.le_of_lt_succ (Nat.lt_of_add_lt_add_left (not_le.mp hlog))
  have hexp : j + 1 ≤ 254 := Nat.add_le_add_right hj 1
  rw [round32_of_log2_eq hL]
  split
  next htop =>
    have hne : j ≠ 253 := by
      rintro rfl
      exact absurd ((rneShift_eq_top_iff hN hL).mp htop) (not_le.mpr hlt)
    have hexp' : j + 2 ≤ 254 := Nat.add_le_add_right (lt_of_le_of_ne hj hne) 1
    rw [if_neg (not_lt.mpr hexp')]
    exact {
      finite := isFinite_pack _ _ (Nat.lt_succ_of_le hexp')
      sign := signBit_pack _ _ _
      mag := by rw [magUnits_pack _ (j := j + 1) (hexp'.trans_lt (by decide)) (by decide), htop]; ring
      parity := by rw [fracField_pack _ _ (by decide), htop]; decide
      leading := .inr hleading }
  next htop =>
    have hfrac : rneShift N.natAbs (149 + j) - 2 ^ 23 < 2 ^ 23 :=
      Nat.sub_lt_left_of_lt_add hge (lt_of_le_of_ne hle htop)
    rw [if_neg (not_lt.mpr hexp)]
    exact {
      finite := isFinite_pack _ _ (Nat.lt_succ_of_le hexp)
      sign := signBit_pack _ _ _
      mag := by rw [magUnits_pack _ (hexp.trans_lt (by decide)) hfrac, Nat.add_sub_cancel' hge]
      parity := by
        rw [fracField_pack _ _ hfrac]
        exact (Nat.modEq_iff_dvd' (Nat.sub_le _ _)).mpr (by rw [Nat.sub_sub_self hge]; decide)
      leading := .inr hleading }

theorem exists_roundedBelow {N : ℤ} (hN : N ≠ 0) (hlt : N.natAbs < (2 ^ 25 - 1) * 2 ^ 401) :
    ∃ j, RoundedBelow N (round32 N) j := by
  have hm : N.natAbs ≠ 0 := Int.natAbs_ne_zero.mpr hN
  rcases Nat.lt_or_ge N.natAbs.log2 172 with hL | hL
  · exact ⟨0, roundedBelow_of_log2_lt hm hL⟩
  · obtain ⟨j, hj⟩ := Nat.exists_eq_add_of_le hL
    exact ⟨j, roundedBelow_of_log2_eq hm hj hlt⟩

end Sys2Proof.Machine
end

section
/-! Roundings of tiny, of exact and of opposite sums (spec/40_lane_numerics.md R92, D13). -/

namespace Sys2Proof.Machine

/-- A sum in the last half unit below `2^-126`, in units of `2^-298`, carries to the smallest normal, the
tie included, since the largest denormal is odd; a smaller one stays a denormal or a zero. -/
theorem round32_of_lt_smallest_normal {N : ℤ} (hN : N ≠ 0) (hlt : N.natAbs < 2 ^ 172) :
    round32 N = if (2 ^ 24 - 1) * 2 ^ 148 ≤ N.natAbs then pack (decide (N < 0)) 1 0
      else pack (decide (N < 0)) 0 (rneShift N.natAbs 149) := by
  have hm : N.natAbs ≠ 0 := Int.natAbs_ne_zero.mpr hN
  have hL := (Nat.log2_lt hm).mpr hlt
  have hle := rneShift_le_of_log2_lt hm hL
  have hiff := even_le_rneShift_iff N.natAbs 148 (q := 2 ^ 23) (c := 2 ^ 24 - 1) (by decide) (by decide)
  have htop : rneShift N.natAbs 149 = 2 ^ 23 ↔ (2 ^ 24 - 1) * 2 ^ 148 ≤ N.natAbs :=
    ⟨fun h => hiff.mp h.ge, fun h => le_antisymm hle (hiff.mpr h)⟩
  rw [round32_of_log2_lt hL]
  exact if_congr htop rfl rfl

/-- A normal pattern's own value is rounded to the pattern. -/
theorem round32_valUnits {w : Lane} (h : classOf w = .normal) : round32 (valUnits w * 2 ^ 149) = w := by
  obtain ⟨he, he'⟩ := (classOf_eq_normal_iff w).mp h
  obtain ⟨j, hj⟩ : ∃ j, expField w = j + 1 := ⟨expField w - 1, by lia⟩
  have hfrac := fracField_lt w
  have hmag : magUnits w = (2 ^ 23 + fracField w) * 2 ^ j := by
    rw [magUnits, hj, if_neg (by lia), Nat.add_sub_cancel]
  have hm : (valUnits w * 2 ^ 149).natAbs = (2 ^ 23 + fracField w) * 2 ^ (149 + j) := by
    rw [Int.natAbs_mul, Int.natAbs_eq_iff.mpr (abs_eq (by positivity) |>.mp (abs_valUnits w)), hmag]
    norm_num
    ring
  have hsign : decide (valUnits w * 2 ^ 149 < 0) = signBit w := by
    have hpos : 0 < magUnits w := by rw [hmag]; positivity
    unfold valUnits
    cases signBit w with
    | false => simp
    | true => simp [hpos]
  have hL : (valUnits w * 2 ^ 149).natAbs.log2 = 172 + j := by
    rw [hm, Nat.log2_eq_iff (by positivity), show 172 + j = 23 + (149 + j) by lia, pow_add,
      show 23 + (149 + j) + 1 = 24 + (149 + j) by lia, pow_add 2 24]
    exact ⟨Nat.mul_le_mul_right _ (by lia), Nat.mul_lt_mul_of_pos_right (by lia) (by positivity)⟩
  rw [round32_of_log2_eq hL, hm, rneShift_mul_two_pow, if_neg (by lia), if_neg (by lia), hsign,
    Nat.add_sub_cancel_left, ← hj, pack_fields]

/-- Only the sign of the result depends on the sign of the sum (R92). -/
theorem exists_round32_eq_pack (m : ℕ) :
    ∃ e f, ∀ N : ℤ, N.natAbs = m → round32 N = pack (decide (N < 0)) e f := by
  rcases Nat.lt_or_ge m.log2 172 with hL | hL
  · by_cases htop : rneShift m 149 = 2 ^ 23
    · refine ⟨1, 0, ?_⟩
      rintro N rfl
      rw [round32_of_log2_lt hL, if_pos htop]
    · refine ⟨0, rneShift m 149, ?_⟩
      rintro N rfl
      rw [round32_of_log2_lt hL, if_neg htop]
  · obtain ⟨j, hj⟩ := Nat.exists_eq_add_of_le hL
    by_cases htop : rneShift m (149 + j) = 2 ^ 24
    · refine ⟨if 254 < j + 2 then 255 else j + 2, 0, ?_⟩
      rintro N rfl
      rw [round32_of_log2_eq hj, if_pos htop]
      split <;> rfl
    · refine ⟨if 254 < j + 1 then 255 else j + 1,
        if 254 < j + 1 then 0 else rneShift m (149 + j) - 2 ^ 23, ?_⟩
      rintro N rfl
      rw [round32_of_log2_eq hj, if_neg htop]
      split <;> rfl

end Sys2Proof.Machine
end

section
/-! The rounding procedure as it is written over the rationals (spec/40_lane_numerics.md R92). -/

namespace Sys2Proof.Machine

/-- `rne` of a quotient by a power of 2 is the shift that rounds. -/
theorem rneQ_div_two_pow (m k : ℕ) : rneQ ((m : ℚ) / 2 ^ k) = rneShift m k := by
  have hpos : (0 : ℚ) < 2 ^ k := by positivity
  have hfloor : ⌊(m : ℚ) / 2 ^ k⌋ = ((m / 2 ^ k : ℕ) : ℤ) := by
    have h := Rat.floor_natCast_div_natCast m (2 ^ k)
    push_cast at h
    exact_mod_cast h
  have hrest : (m : ℚ) / 2 ^ k - ((m / 2 ^ k : ℕ) : ℚ) = ((m % 2 ^ k : ℕ) : ℚ) / 2 ^ k := by
    have h : (m : ℚ) = 2 ^ k * ((m / 2 ^ k : ℕ) : ℚ) + ((m % 2 ^ k : ℕ) : ℚ) := by
      exact_mod_cast (Nat.div_add_mod m (2 ^ k)).symm
    field_simp
    linarith
  have hlow : ((m % 2 ^ k : ℕ) : ℚ) / 2 ^ k < 1 / 2 ↔ 2 * (m % 2 ^ k) < 2 ^ k := by
    rw [div_lt_div_iff₀ hpos two_pos, ← Nat.cast_lt (α := ℚ)]
    push_cast
    constructor <;> intro h <;> linarith
  have hhigh : 1 / 2 < ((m % 2 ^ k : ℕ) : ℚ) / 2 ^ k ↔ 2 ^ k < 2 * (m % 2 ^ k) := by
    rw [div_lt_div_iff₀ two_pos hpos, ← Nat.cast_lt (α := ℚ)]
    push_cast
    constructor <;> intro h <;> linarith
  have htie (q : ℕ) : (if q % 2 = 0 then q else q + 1) = q + q % 2 := by
    split <;> lia
  simp only [rneQ, rneShift, hfloor, Int.toNat_natCast, Int.cast_natCast, hrest, hlow, hhigh, htie]

/-- The place of the leading bit of `N * 2^-298`. -/
theorem log_two_div (m : ℕ) (hm : m ≠ 0) : Int.log 2 ((m : ℚ) / 2 ^ 298) = (m.log2 : ℤ) - 298 := by
  have hpos : (0 : ℚ) < (m : ℚ) / 2 ^ 298 := by positivity
  have hscale (x : ℕ) : ((2 : ℕ) : ℚ) ^ ((x : ℤ) - 298) = ((2 ^ x : ℕ) : ℚ) / 2 ^ 298 := by
    rw [zpow_sub₀ (by norm_num)]
    norm_cast
  have hlow : (m.log2 : ℤ) - 298 ≤ Int.log 2 ((m : ℚ) / 2 ^ 298) := by
    rw [← Int.zpow_le_iff_le_log (by decide) hpos, hscale]
    have h := Nat.log2_self_le hm
    gcongr
  have hhigh : Int.log 2 ((m : ℚ) / 2 ^ 298) < ((m.log2 + 1 : ℕ) : ℤ) - 298 := by
    rw [← Int.lt_zpow_iff_log_lt (by decide) hpos, hscale]
    have h := Nat.lt_log2_self (n := m)
    gcongr
  lia

/-- The exponent `E` of R92, of a sum in units of `2^-298` whose leading bit is at `L`. -/
theorem normal_exponent_iff (L : ℕ) : -126 ≤ (L : ℤ) - 298 ↔ 172 ≤ L := by lia

theorem step_exponent (j : ℕ) : ((172 + j : ℕ) : ℤ) - 298 - 23 = ((149 + j : ℕ) : ℤ) - 298 := by lia

theorem biased_exponent (j : ℕ) : ((172 + j : ℕ) : ℤ) - 298 + 127 = (j + 1 : ℕ) := by lia

theorem largest_exponent_iff (j : ℕ) : 127 < ((172 + j : ℕ) : ℤ) - 298 ↔ 254 < j + 1 := by lia

/-- The integer procedure is the rule over the rationals, on sums in units of `2^-298` (R92). -/
theorem round32Q_div_two_pow {N : ℤ} (hN : N ≠ 0) : round32Q ((N : ℚ) / 2 ^ 298) = round32 N := by
  have hm : N.natAbs ≠ 0 := Int.natAbs_ne_zero.mpr hN
  have habs : |(N : ℚ) / 2 ^ 298| = (N.natAbs : ℚ) / 2 ^ 298 := by
    rw [abs_div, abs_of_pos (show (0 : ℚ) < 2 ^ 298 by positivity), Nat.cast_natAbs, Int.cast_abs]
  have hneg : (N : ℚ) / 2 ^ 298 < 0 ↔ N < 0 := by
    rw [div_lt_iff₀ (by positivity), zero_mul, Int.cast_lt_zero]
  have hquot (k : ℕ) : (N.natAbs : ℚ) / 2 ^ 298 / (2 : ℚ) ^ ((k : ℤ) - 298) = (N.natAbs : ℚ) / 2 ^ k := by
    rw [zpow_sub₀ (by norm_num), zpow_natCast, show (298 : ℤ) = ((298 : ℕ) : ℤ) by rfl, zpow_natCast]
    field_simp
  unfold round32Q
  simp only [habs, hneg, log_two_div _ hm]
  rcases Nat.lt_or_ge N.natAbs.log2 172 with hL | hL
  · rw [if_neg ((normal_exponent_iff _).not.mpr (not_le.mpr hL)), round32_of_log2_lt hL,
      show (-149 : ℤ) = ((149 : ℕ) : ℤ) - 298 by rfl, hquot, rneQ_div_two_pow]
  · obtain ⟨j, hj⟩ := Nat.exists_eq_add_of_le hL
    rw [if_pos ((normal_exponent_iff _).mpr hL), round32_of_log2_eq hj, hj, step_exponent, hquot,
      rneQ_div_two_pow]
    by_cases htop : rneShift N.natAbs (149 + j) = 2 ^ 24
    · have hnext : ((172 + j : ℕ) : ℤ) - 298 + 1 = ((172 + (j + 1) : ℕ) : ℤ) - 298 := by lia
      simp only [htop, if_true, hnext, largest_exponent_iff, biased_exponent, Int.toNat_natCast,
        Nat.sub_self]
    · simp only [htop, if_false, largest_exponent_iff, biased_exponent, Int.toNat_natCast]

end Sys2Proof.Machine
end

section
/-! The fused multiply-add by its cases (spec/40_lane_numerics.md R86), and the exact sum over the rational
numbers (R91). -/

namespace Sys2Proof.Machine

/-! ### The cases of R86 -/

theorem not_invalidOperands_of_isFinite {a c b : Lane} (ha : isFinite a = true) (hc : isFinite c = true)
    (hb : classOf b ≠ .nan) : ¬ InvalidOperands a c b := by
  obtain ⟨hai, han⟩ := (isFinite_iff a).mp ha
  obtain ⟨hci, hcn⟩ := (isFinite_iff c).mp hc
  rintro (h | h | ⟨h, -, -⟩)
  · exact h.elim han (·.elim hcn hb)
  · exact h.elim (fun h => hai h.1) (fun h => hci h.2)
  · exact h.elim hai hci

/-- The cases that R86 leaves for operands that are not invalid: an infinite product, an infinite addend alone,
and finite operands. -/
inductive ValidOperands (a c b : Lane) : Prop where
  | infProduct (hp : classOf a = .inf ∨ classOf c = .inf)
  | infAddend (hp : ¬ (classOf a = .inf ∨ classOf c = .inf)) (hb : classOf b = .inf)
  | finite (hf : FiniteOperands a c b)

theorem validOperands_of_not_invalid {a c b : Lane} (h : ¬ InvalidOperands a c b) :
    ValidOperands a c b := by
  by_cases hp : classOf a = .inf ∨ classOf c = .inf
  · exact .infProduct hp
  by_cases hb : classOf b = .inf
  · exact .infAddend hp hb
  obtain ⟨hai, hci⟩ := not_or.mp hp
  exact .finite {
    a := (isFinite_iff a).mpr ⟨hai, fun hn => h (.nan (.inl hn))⟩
    c := (isFinite_iff c).mpr ⟨hci, fun hn => h (.nan (.inr (.inl hn)))⟩
    b := (isFinite_iff b).mpr ⟨hb, fun hn => h (.nan (.inr (.inr hn)))⟩ }

/-- An infinite product that is not invalid is the infinity of its sign. -/
theorem fma32_of_inf_product (nan : Lane) {a c b : Lane} (h : ¬ InvalidOperands a c b)
    (hp : classOf a = .inf ∨ classOf c = .inf) : fma32 nan a c b = infLane (signBit a ^^ signBit c) := by
  have hnan := fun x => h (.nan x)
  have hzero := fun x => h (.infTimesZero x)
  have hsub := fun x : _ ∧ _ => h (.infMinusInf hp x.1 x.2)
  unfold fma32
  dsimp only
  rw [if_neg hnan, if_neg hzero, if_pos hp, if_neg hsub]

/-- With finite multiplicands an infinite addend is the result. -/
theorem fma32_of_inf_addend (nan : Lane) {a c b : Lane} (h : ¬ InvalidOperands a c b)
    (hp : ¬ (classOf a = .inf ∨ classOf c = .inf)) (hb : classOf b = .inf) : fma32 nan a c b = b := by
  have hnan := fun x => h (.nan x)
  have hzero := fun x => h (.infTimesZero x)
  unfold fma32
  dsimp only
  rw [if_neg hnan, if_neg hzero, if_neg hp, if_pos hb]

section Finite

variable (nan : Lane) {a c b : Lane} (hf : FiniteOperands a c b)

include hf

/-- Finite operands reach the exact sum. -/
theorem fma32_of_isFinite : fma32 nan a c b =
    if exactSum a c b ≠ 0 then round32 (exactSum a c b)
    else if (classOf a = .zero ∨ classOf c = .zero) ∧ classOf b = .zero then
      if (signBit a ^^ signBit c) = signBit b then zeroLane (signBit a ^^ signBit c) else zeroLane false
    else zeroLane false := by
  obtain ⟨hai, han⟩ := (isFinite_iff a).mp hf.a
  obtain ⟨hci, hcn⟩ := (isFinite_iff c).mp hf.c
  obtain ⟨hbi, hbn⟩ := (isFinite_iff b).mp hf.b
  simp [fma32, hai, han, hci, hcn, hbi, hbn]

theorem fma32_of_sum_ne_zero (h : exactSum a c b ≠ 0) : fma32 nan a c b = round32 (exactSum a c b) := by
  rw [fma32_of_isFinite nan hf, if_pos h]

/-- A sum that is zero gives a zero. -/
theorem exists_fma32_eq_zeroLane (h : exactSum a c b = 0) : ∃ s, fma32 nan a c b = zeroLane s := by
  rw [fma32_of_isFinite nan hf, if_neg (not_not.mpr h)]
  split
  · split
    · exact ⟨_, rfl⟩
    · exact ⟨_, rfl⟩
  · exact ⟨_, rfl⟩

end Finite

/-! ### The exact sum over the rationals (R91) -/

theorem valQ_eq_div {w : Lane} (h : isFinite w = true) : valQ w = (valUnits w : ℚ) / 2 ^ 149 := by
  rw [unitsAreTheValues w h, mul_div_cancel_right₀ _ (by norm_num)]

/-- A number of the machine's units `2^-298` that has a power of 2 in it. -/
theorem mul_two_pow_div (x : ℕ) {k l : ℕ} (h : k + l = 298) :
    ((x * 2 ^ k : ℕ) : ℚ) / 2 ^ 298 = x / 2 ^ l := by
  rw [← h, pow_add]
  push_cast
  field_simp

section Sum

variable {a c b : Lane} (hf : FiniteOperands a c b)

include hf

/-- The integer sum is the rational one in units of `2^-298`. -/
theorem sumQ_eq_div : sumQ a c b = (exactSum a c b : ℚ) / 2 ^ 298 := by
  rw [sumQ, valQ_eq_div hf.a, valQ_eq_div hf.c, valQ_eq_div hf.b, exactSum, show 298 = 149 + 149 by rfl,
    pow_add]
  push_cast
  field_simp
  ring

theorem sumQ_eq_zero_iff : sumQ a c b = 0 ↔ exactSum a c b = 0 := by
  rw [sumQ_eq_div hf, div_eq_zero_iff, Int.cast_eq_zero]
  exact or_iff_left (by norm_num)

theorem sumQ_neg_iff : sumQ a c b < 0 ↔ exactSum a c b < 0 := by
  rw [sumQ_eq_div hf, div_lt_iff₀ (by positivity), zero_mul, Int.cast_lt_zero]

/-- Bounds on the sum's magnitude, in the machine's units. -/
theorem div_le_abs_sumQ_iff (x : ℕ) :
    (x : ℚ) / 2 ^ 298 ≤ |sumQ a c b| ↔ x ≤ (exactSum a c b).natAbs := by
  rw [sumQ_eq_div hf, abs_div, abs_of_pos (show (0 : ℚ) < 2 ^ 298 by positivity),
    div_le_div_iff_of_pos_right (by positivity), ← Int.cast_abs, Int.abs_eq_natAbs, Int.cast_natCast,
    Nat.cast_le]

/-- The overflow threshold (R93). -/
theorem threshold_le_abs_sumQ_iff :
    2 ^ 128 - 2 ^ 103 ≤ |sumQ a c b| ↔ (2 ^ 25 - 1) * 2 ^ 401 ≤ (exactSum a c b).natAbs := by
  have hunits : (2 : ℚ) ^ 128 - 2 ^ 103 = (((2 ^ 25 - 1) * 2 ^ 401 : ℕ) : ℚ) / 2 ^ 298 := by
    have hpow : (2 : ℚ) ^ 401 = 2 ^ 103 * 2 ^ 298 := by rw [← pow_add]
    rw [Nat.cast_mul, Nat.cast_pow, Nat.cast_ofNat, hpow, ← mul_assoc,
      mul_div_cancel_right₀ _ (by norm_num)]
    norm_num
  rw [hunits, div_le_abs_sumQ_iff hf]

/-- The edge of the output flush (R95). -/
theorem flushEdge_le_abs_sumQ_iff :
    1 / 2 ^ 126 - 1 / 2 ^ 150 ≤ |sumQ a c b| ↔ (2 ^ 24 - 1) * 2 ^ 148 ≤ (exactSum a c b).natAbs := by
  have hunits : (1 : ℚ) / 2 ^ 126 - 1 / 2 ^ 150 = (((2 ^ 24 - 1) * 2 ^ 148 : ℕ) : ℚ) / 2 ^ 298 := by
    rw [mul_two_pow_div _ (show 148 + 150 = 298 by rfl)]
    norm_num
  rw [hunits, div_le_abs_sumQ_iff hf]

/-- The smallest normal magnitude. -/
theorem smallestNormal_le_abs_sumQ_iff :
    1 / 2 ^ 126 ≤ |sumQ a c b| ↔ 2 ^ 172 ≤ (exactSum a c b).natAbs := by
  have hunits : (1 : ℚ) / 2 ^ 126 = ((1 * 2 ^ 172 : ℕ) : ℚ) / 2 ^ 298 := by
    rw [mul_two_pow_div _ (show 172 + 126 = 298 by rfl), Nat.cast_one]
  rw [hunits, div_le_abs_sumQ_iff hf, one_mul]

end Sum

/-- Settles O19: both are one rounding of the exact sum, in two units. -/
theorem fusedSumRoundedOnce : Obligations.FusedSumRoundedOnce := by
  intro nan a c b ha hc hb h
  have hf : FiniteOperands a c b := ⟨ha, hc, hb⟩
  have hsum := (sumQ_eq_zero_iff hf).not.mp h
  rw [fma32_of_sum_ne_zero nan hf hsum, sumQ_eq_div hf, round32Q_div_two_pow hsum]

end Sys2Proof.Machine
end

section
/-! Infinities, overflow and tiny results (spec/40_lane_numerics.md R90, R93, R95). -/

namespace Sys2Proof.Machine

@[simp] theorem flush_infLane (s : Bool) : flush (infLane s) = infLane s :=
  flush_of_ne_denormal (by simp)

theorem flush_of_classOf_flush_ne_zero {w : Lane} (h : classOf (flush w) ≠ .zero) : flush w = w :=
  flush_of_ne_denormal fun hd => h (classOf_flush_eq_zero (.inr hd))

/-- Settles O18: an infinite product that is not invalid, and an infinite addend to a finite product. -/
theorem infinityArithmetic : Obligations.InfinityArithmetic := by
  refine fun nan a c b => ⟨fun hp ha hc han hcn hb => ?product, fun ha hc hb => ?addend⟩
  case product =>
    have hfa := flush_of_classOf_flush_ne_zero ha
    have hfc := flush_of_classOf_flush_ne_zero hc
    have hfb : classOf (flush b) ≠ .nan ∧
        (classOf (flush b) = .inf → signBit b = (signBit a ^^ signBit c)) := by
      rcases hb with hb | ⟨hb, hs⟩
      · obtain ⟨hbi, hbn⟩ := (isFinite_iff _).mp (isFinite_flush hb)
        exact ⟨hbn, fun h => absurd h hbi⟩
      · exact ⟨by rw [classOf_flush_of_inf hb]; decide, fun _ => hs⟩
    obtain ⟨hbn, hbs⟩ := hfb
    rw [hfa] at ha
    rw [hfc] at hc
    have hvalid : ¬ InvalidOperands a c (flush b) := by
      rintro (h | h | ⟨-, h, hs⟩)
      · exact h.elim han (·.elim hcn hbn)
      · exact h.elim (fun h => hc h.2) (fun h => ha h.1)
      · exact hs (by rw [signBit_flush, hbs h])
    rw [maddLane, hfa, hfc, fma32_of_inf_product nan hvalid hp, flush_infLane]
  case addend =>
    have hbi := classOf_flush_of_inf hb
    obtain ⟨hai, -⟩ := (isFinite_iff _).mp (isFinite_flush ha)
    obtain ⟨hci, -⟩ := (isFinite_iff _).mp (isFinite_flush hc)
    have hvalid := not_invalidOperands_of_isFinite (isFinite_flush ha) (isFinite_flush hc)
      (show classOf (flush b) ≠ .nan by rw [hbi]; decide)
    rw [maddLane, fma32_of_inf_addend nan hvalid (not_or.mpr ⟨hai, hci⟩) hbi, flush_flush]
    exact flush_of_ne_denormal (by rw [hb]; decide)

/-- Settles O21: the rounding gives an infinity from the threshold on, and below it a finite pattern. -/
theorem overflowGivesInfinity : Obligations.OverflowGivesInfinity := by
  intro nan a c b ha hc hb S
  have hf := (FiniteOperands.mk ha hc hb).flush
  have overflow (h : 2 ^ 128 - 2 ^ 103 ≤ |S|) : maddLane nan a c b = infLane (decide (S < 0)) := by
    have hN := (threshold_le_abs_sumQ_iff hf).mp h
    have hne : exactSum (flush a) (flush c) (flush b) ≠ 0 :=
      Int.natAbs_ne_zero.mp (ne_zero_of_threshold_le hN)
    rw [maddLane, fma32_of_sum_ne_zero nan hf hne, round32_of_threshold_le hN, flush_infLane,
      decide_eq_decide.mpr (sumQ_neg_iff hf)]
  refine ⟨fun h => ?positive, fun h => ?negative, fun h => ?below⟩
  case positive =>
    have hneg : ¬ S < 0 := not_lt.mpr (le_trans (by norm_num) h)
    rw [overflow (h.trans (le_abs_self S)), decide_eq_false hneg]
    decide
  case negative =>
    have hneg : S < 0 := lt_of_le_of_lt h (by norm_num)
    rw [overflow ((le_neg_of_le_neg h).trans (neg_le_abs S)), decide_eq_true hneg]
    decide
  case below =>
    rw [maddLane]
    apply isFinite_flush
    by_cases h0 : exactSum (flush a) (flush c) (flush b) = 0
    · obtain ⟨s, hs⟩ := exists_fma32_eq_zeroLane nan hf h0
      rw [hs]
      simp [isFinite]
    · rw [fma32_of_sum_ne_zero nan hf h0]
      have hlt := (threshold_le_abs_sumQ_iff hf).not.mp (not_le.mpr h)
      obtain ⟨j, hr⟩ := exists_roundedBelow h0 (not_le.mp hlt)
      exact hr.finite

/-- A pattern with exponent 0 is flushed to the zero of its sign. -/
theorem flush_pack_zero (s : Bool) (f : ℕ) : flush (pack s 0 f) = zeroLane s := by
  have hexp := expField_pack s f (e := 0) (by decide)
  by_cases hf : fracField (pack s 0 f) = 0
  · have hz := (classOf_eq_zero_iff _).mpr ⟨hexp, hf⟩
    rw [flush_of_ne_denormal (by rw [hz]; decide), eq_zeroLane hz, signBit_pack]
  · rw [flush_of_denormal ((classOf_eq_denormal_iff _).mpr ⟨hexp, hf⟩), signBit_pack]

theorem flush_of_normal {w : Lane} (h : classOf w = .normal) : flush w = w :=
  flush_of_ne_denormal (by rw [h]; decide)

theorem classOf_pack_of_normal (s : Bool) {e : ℕ} (f : ℕ) (he : 1 ≤ e) (he' : e ≤ 254) :
    classOf (pack s e f) = .normal := by
  rw [classOf_eq_normal_iff, expField_pack s f (by lia)]
  exact ⟨he, he'⟩

/-- Settles O23: below the smallest normal the rounding gives a denormal, which is flushed, or carries. -/
theorem outputFlushEdges : Obligations.OutputFlushEdges := by
  intro nan a c b ha hc hb S
  have hf := (FiniteOperands.mk ha hc hb).flush
  have hneg : decide (S < 0) = decide (exactSum (flush a) (flush c) (flush b) < 0) :=
    decide_eq_decide.mpr (sumQ_neg_iff hf)
  have rounded (hS : S ≠ 0) (hlt : |S| < 1 / 2 ^ 126) := by
    have h0 := (sumQ_eq_zero_iff hf).not.mp hS
    have hsmall := not_le.mp ((smallestNormal_le_abs_sumQ_iff hf).not.mp (not_le.mpr hlt))
    exact (fma32_of_sum_ne_zero nan hf h0).trans (round32_of_lt_smallest_normal h0 hsmall)
  refine ⟨fun hS hlt => ?tiny, fun hge hlt => ?carried⟩
  case tiny =>
    have hedge := (flushEdge_le_abs_sumQ_iff hf).not.mp (not_le.mpr hlt)
    rw [maddLane, rounded hS (hlt.trans (by norm_num)), if_neg hedge, flush_pack_zero, hneg]
  case carried =>
    have hedge := (flushEdge_le_abs_sumQ_iff hf).mp hge
    have hS : S ≠ 0 := by
      intro h0
      rw [h0, abs_zero] at hge
      norm_num at hge
    rw [maddLane, rounded hS hlt, if_pos hedge, hneg]
    exact flush_of_normal (classOf_pack_of_normal _ 0 le_rfl (by decide))

end Sys2Proof.Machine
end

section
/-! What rounding to nearest means (spec/40_lane_numerics.md R92, D9): no finite pattern is nearer. -/

namespace Sys2Proof.Machine

/-- A finite magnitude is a multiple of any step, or lies below the lowest significand of that step. -/
theorem step_dvd_magUnits_or_lt (w : Lane) (j : ℕ) : 2 ^ j ∣ magUnits w ∨ magUnits w < 2 ^ (23 + j) := by
  have hfrac := fracField_lt w
  unfold magUnits
  split
  next => exact .inr (hfrac.trans_le (Nat.pow_le_pow_right (by decide) (by lia)))
  next =>
    rcases le_or_gt j (expField w - 1) with hle | hlt
    · exact .inl (Dvd.dvd.mul_left (Nat.pow_dvd_pow 2 hle) _)
    · right
      calc (2 ^ 23 + fracField w) * 2 ^ (expField w - 1)
        _ < 2 ^ 24 * 2 ^ (expField w - 1) := Nat.mul_lt_mul_of_pos_right (by lia) (Nat.two_pow_pos _)
        _ ≤ 2 ^ (23 + j) := by
          rw [← pow_add]
          exact Nat.pow_le_pow_right (by decide) (by lia)

/-- The distance of a value in units of `2^-149` from a sum in units of `2^-298`. -/
def unitsDist (v N : ℤ) : ℤ := |v * 2 ^ 149 - N|

/-- What the rounding rule says of a result `v`, with the significand or fraction `n`, against another value
`w`: `w` is no nearer to the sum, and where it is as near, `n` is even. -/
structure NoFarther (N v w : ℤ) (n : ℕ) : Prop where
  dist_le : unitsDist v N ≤ unitsDist w N
  even_of_dist_eq : unitsDist v N = unitsDist w N → w ≠ v → n % 2 = 0

/-- Of two values below the sum the lower is farther away. -/
theorem unitsDist_lt_of_lt {v w N : ℤ} (hwv : w * 2 ^ 149 < v * 2 ^ 149) (hv : v * 2 ^ 149 ≤ N) :
    unitsDist v N < unitsDist w N := by
  rw [unitsDist, unitsDist, abs_sub_comm, abs_of_nonneg (sub_nonneg.mpr hv), abs_sub_comm,
    abs_of_nonneg (sub_nonneg.mpr (hwv.le.trans hv))]
  exact sub_lt_sub_left hwv _

/-- Among all multiples of the step and all magnitudes below the lowest significand, none is nearer than the
rounded one, and where another is as near, the significand is even. -/
theorem noFarther_rneShift {m j x : ℕ} (hlead : j = 0 ∨ 2 ^ (172 + j) ≤ m)
    (hx : 2 ^ j ∣ x ∨ x < 2 ^ (23 + j)) :
    NoFarther m (rneShift m (149 + j) * 2 ^ j : ℕ) x (rneShift m (149 + j)) := by
  have hnear := nearestEven_rneShift m (149 + j)
  have hscale (q : ℕ) : unitsDist (q * 2 ^ j : ℕ) m = |((q * 2 ^ (149 + j) : ℕ) : ℤ) - m| := by
    rw [unitsDist, add_comm 149 j, pow_add, ← mul_assoc, Nat.cast_mul (q * 2 ^ j), Nat.cast_pow 2 149,
      Nat.cast_two]
  have multiple (q : ℕ) : unitsDist (rneShift m (149 + j) * 2 ^ j : ℕ) m ≤ unitsDist (q * 2 ^ j : ℕ) m := by
    rw [hscale, hscale]
    exact hnear.dist_le q
  by_cases hdvd : 2 ^ j ∣ x
  · obtain ⟨q, rfl⟩ := hdvd
    rw [mul_comm (2 ^ j) q]
    refine ⟨multiple q, fun heq hne => ?_⟩
    rw [hscale, hscale] at heq
    exact hnear.even_of_dist_eq (Nat.two_pow_pos _) (fun h => hne (by rw [h])) heq
  · have hlt := hx.resolve_left hdvd
    have hlow : 2 ^ (172 + j) ≤ m := hlead.resolve_left fun h => hdvd (by rw [h]; exact one_dvd x)
    have hbelow : x * 2 ^ 149 < 2 ^ 23 * 2 ^ j * 2 ^ 149 := by
      rw [← pow_add]
      exact Nat.mul_lt_mul_of_pos_right hlt (Nat.two_pow_pos _)
    have htop : 2 ^ 23 * 2 ^ j * 2 ^ 149 ≤ m := by
      rwa [← pow_add, ← pow_add, show 23 + j + 149 = 172 + j by lia]
    have hstrict : unitsDist (2 ^ 23 * 2 ^ j : ℕ) m < unitsDist x m :=
      unitsDist_lt_of_lt (by exact_mod_cast hbelow) (by exact_mod_cast htop)
    have hlt' := (multiple (2 ^ 23)).trans_lt hstrict
    exact ⟨hlt'.le, fun heq => absurd heq hlt'.ne⟩

/-- A pattern of the sum's sign is as far from the sum as its magnitude from the sum's. -/
theorem unitsDist_of_sign {w : Lane} {N : ℤ} (h : signBit w = decide (N < 0)) :
    unitsDist (valUnits w) N = unitsDist (magUnits w) N.natAbs := by
  rw [valUnits, h, unitsDist, unitsDist, Int.natCast_natAbs]
  by_cases hN : N < 0
  · rw [if_pos (decide_eq_true hN), abs_of_neg hN, ← abs_neg]
    congr 1
    ring
  · rw [if_neg (by rw [decide_eq_true_iff]; exact hN), abs_of_nonneg (not_lt.mp hN)]

/-- A pattern of any sign is no nearer. -/
theorem unitsDist_magUnits_le (w : Lane) (N : ℤ) :
    unitsDist (magUnits w) N.natAbs ≤ unitsDist (valUnits w) N := by
  have habs : (magUnits w : ℤ) * 2 ^ 149 = |valUnits w * 2 ^ 149| := by
    rw [abs_mul, abs_valUnits, abs_of_pos (show (0 : ℤ) < 2 ^ 149 by positivity)]
  rw [unitsDist, unitsDist, Int.natCast_natAbs, habs]
  exact abs_abs_sub_abs_le_abs_sub _ _

/-- Only zero and its opposite are equally far from a sum that is not zero. -/
theorem eq_zero_of_unitsDist_neg {v N : ℤ} (hN : N ≠ 0) (h : unitsDist v N = unitsDist (-v) N) : v = 0 := by
  rw [unitsDist, unitsDist, neg_mul] at h
  rcases abs_eq_abs.mp h with h | h
  · lia
  · exact absurd (by lia) hN

/-- What a sum below the threshold is rounded to is nearest among the finite patterns, and even where
another value is as near. -/
theorem RoundedBelow.noFarther {N : ℤ} {r : Lane} {j : ℕ} (h : RoundedBelow N r j) (hN : N ≠ 0) (w : Lane) :
    NoFarther N (valUnits r) (valUnits w) (fracField r) := by
  have hr := unitsDist_of_sign h.sign
  have hw := unitsDist_magUnits_le w N
  have hmag := noFarther_rneShift h.leading (step_dvd_magUnits_or_lt w j)
  rw [← h.mag] at hmag
  have hle : unitsDist (valUnits r) N ≤ unitsDist (magUnits w) N.natAbs := hr.le.trans hmag.dist_le
  refine ⟨hle.trans hw, fun heq hne => ?_⟩
  rw [h.parity]
  refine hmag.even_of_dist_eq (hr.symm.trans (le_antisymm hle (hw.trans heq.ge))) fun hsame => ?_
  have hopposite : valUnits w = -valUnits r := by
    have habs : |valUnits w| = |valUnits r| := by rw [abs_valUnits, abs_valUnits, hsame]
    exact (abs_eq_abs.mp habs).resolve_left hne
  rw [hopposite] at heq
  exact hne (by rw [hopposite, eq_zero_of_unitsDist_neg hN heq, neg_zero])

/-- The distance of a finite pattern's value from the exact sum, in the machine's units. -/
theorem abs_valQ_sub_sumQ {a c b w : Lane} (hf : FiniteOperands a c b) (hw : isFinite w = true) :
    |valQ w - sumQ a c b| = unitsDist (valUnits w) (exactSum a c b) / 2 ^ 298 := by
  have hdiff : valQ w - sumQ a c b = ((valUnits w * 2 ^ 149 - exactSum a c b : ℤ) : ℚ) / 2 ^ 298 := by
    rw [valQ_eq_div hw, sumQ_eq_div hf, show 298 = 149 + 149 by rfl, pow_add]
    push_cast
    field_simp
    ring
  rw [hdiff, abs_div, abs_of_pos (show (0 : ℚ) < 2 ^ 298 by positivity), unitsDist, Int.cast_abs]

/-- Settles O20: below the threshold the rounded sum is nearest, in the machine's units. -/
theorem roundingIsNearestEven : Obligations.RoundingIsNearestEven := by
  intro nan a c b ha hc hb hsum hlt S r
  have hf : FiniteOperands a c b := ⟨ha, hc, hb⟩
  have hN := (sumQ_eq_zero_iff hf).not.mp hsum
  have hbelow := (threshold_le_abs_sumQ_iff hf).not.mp (not_le.mpr hlt)
  obtain ⟨j, hr⟩ := exists_roundedBelow hN (not_le.mp hbelow)
  rw [← fma32_of_sum_ne_zero nan hf hN] at hr
  refine ⟨hr.finite, fun w hw => ?_⟩
  obtain ⟨hle, heven⟩ := hr.noFarther hN w
  rw [abs_valQ_sub_sumQ hf hr.finite, abs_valQ_sub_sumQ hf hw,
    div_le_div_iff_of_pos_right (by positivity), div_left_inj' (by positivity), Int.cast_le, Int.cast_inj]
  refine ⟨hle, fun heq hne => heven heq fun hunits => hne ?_⟩
  rw [valQ_eq_div hw, valQ_eq_div hr.finite, hunits]

end Sys2Proof.Machine
end

section
/-! Exact zeros (spec/40_lane_numerics.md R94), and the multiply idiom (spec/41_vmaddfp.md section 1). -/

namespace Sys2Proof.Machine

/-! ### Exact zeros (R94) -/

theorem valQ_eq_zero_iff {w : Lane} (h : isFinite w = true) : valQ w = 0 ↔ classOf w = .zero := by
  rw [valQ_eq_div h, div_eq_zero_iff, Int.cast_eq_zero, valUnits_eq_zero_iff]
  exact or_iff_left (by norm_num)

theorem isFinite_of_normal {w : Lane} (h : classOf w = .normal) : isFinite w = true := by
  rw [isFinite_iff, h]
  decide

theorem isFinite_of_zero {w : Lane} (h : classOf w = .zero) : isFinite w = true := by
  rw [isFinite_iff, h]
  decide

theorem flush_of_zero {w : Lane} (h : classOf w = .zero) : flush w = w :=
  flush_of_ne_denormal (by rw [h]; decide)

/-- Of a zero product the sum is the addend. -/
theorem exactSum_of_zero_product {a c : Lane} (b : Lane) (hp : classOf a = .zero ∨ classOf c = .zero) :
    exactSum a c b = valUnits b * 2 ^ 149 := by
  have hzero : valUnits a * valUnits c = 0 := by
    rwa [mul_eq_zero, valUnits_eq_zero_iff, valUnits_eq_zero_iff]
  rw [exactSum, hzero, zero_add]

section Zeros

variable (nan : Lane) {a c b : Lane} (hf : FiniteOperands a c b)

include hf

/-- A zero product and a zero addend: the common sign, or `+0`. -/
theorem fma32_of_zeros (hp : classOf a = .zero ∨ classOf c = .zero) (hb : classOf b = .zero) :
    fma32 nan a c b =
      if (signBit a ^^ signBit c) = signBit b then zeroLane (signBit b) else zeroLane false := by
  have hsum : exactSum a c b = 0 := by
    rw [exactSum_of_zero_product b hp, (valUnits_eq_zero_iff b).mpr hb, zero_mul]
  rw [fma32_of_isFinite nan hf, if_neg (not_not.mpr hsum), if_pos ⟨hp, hb⟩]
  exact ite_congr rfl (fun h => by rw [h]) (fun _ => rfl)

/-- A zero product returns a normal addend. -/
theorem fma32_of_zero_product (hp : classOf a = .zero ∨ classOf c = .zero) (hb : classOf b = .normal) :
    fma32 nan a c b = b := by
  have hval : valUnits b ≠ 0 := by
    rw [ne_eq, valUnits_eq_zero_iff, hb]
    decide
  have hsum := exactSum_of_zero_product b hp
  rw [fma32_of_sum_ne_zero nan hf (by rw [hsum]; positivity), hsum, round32_valUnits hb]

end Zeros

theorem classOf_eq_normal {w : Lane} (hf : isFinite w = true) (hz : classOf w ≠ .zero)
    (hd : classOf w ≠ .denormal) : classOf w = .normal := by
  obtain ⟨hi, hn⟩ := (isFinite_iff w).mp hf
  cases hw : classOf w with
  | normal => rfl
  | zero => exact absurd hw hz
  | denormal => exact absurd hw hd
  | inf => exact absurd hw hi
  | nan => exact absurd hw hn

/-- Settles O22: no input is flushed, and each clause is a case of R94. -/
theorem exactZeroSigns : Obligations.ExactZeroSigns := by
  intro nan a c b ha hc hb had hcd hbd
  have hf : FiniteOperands a c b := ⟨ha, hc, hb⟩
  rw [maddLane, flush_of_ne_denormal had, flush_of_ne_denormal hcd, flush_of_ne_denormal hbd]
  refine ⟨fun hp hz => ?zeros, fun hp hz => ?addend, fun haz hcz hS => ?cancellation⟩
  case zeros =>
    rw [fma32_of_zeros nan hf hp hz]
    split
    · exact flush_zeroLane _
    · exact flush_zeroLane false
  case addend =>
    have hn := classOf_eq_normal hb hz hbd
    rw [fma32_of_zero_product nan hf hp hn, flush_of_normal hn]
  case cancellation =>
    have hsum := (sumQ_eq_zero_iff hf).mp hS
    rw [fma32_of_isFinite nan hf, if_neg (not_not.mpr hsum),
      if_neg fun h => h.1.elim haz hcz]
    exact flush_zeroLane false

/-! ### The multiply idiom -/

theorem valQ_zeroLane (z : Bool) : valQ (zeroLane z) = 0 :=
  (valQ_eq_zero_iff (isFinite_of_zero (classOf_zeroLane z))).mpr (classOf_zeroLane z)

/-- With a zero for an addend a lane is the rounded product, and a zero product keeps its sign with `-0`
alone. -/
theorem maddLane_zeroLane (nan : Lane) (z : Bool) {a c : Lane} (ha : isFinite a = true)
    (hc : isFinite c = true) :
    (valQ (flush a) * valQ (flush c) ≠ 0 →
      maddLane nan a c (zeroLane z) = flush (round32Q (valQ (flush a) * valQ (flush c)))) ∧
    (valQ (flush a) * valQ (flush c) = 0 →
      maddLane nan a c (zeroLane z) = zeroLane (z && (signBit (flush a) ^^ signBit (flush c)))) := by
  replace ha := isFinite_flush ha
  replace hc := isFinite_flush hc
  have hz := classOf_zeroLane z
  have hsum : sumQ (flush a) (flush c) (zeroLane z) = valQ (flush a) * valQ (flush c) := by
    rw [sumQ, valQ_zeroLane, add_zero]
  rw [maddLane, flush_zeroLane]
  refine ⟨fun hne => ?product, fun h0 => ?zero⟩
  case product =>
    rw [← hsum] at hne ⊢
    rw [fusedSumRoundedOnce nan _ _ _ ha hc (isFinite_of_zero hz) hne]
  case zero =>
    rw [mul_eq_zero, valQ_eq_zero_iff ha, valQ_eq_zero_iff hc] at h0
    rw [fma32_of_zeros nan ⟨ha, hc, isFinite_of_zero hz⟩ h0 hz, signBit_zeroLane]
    generalize (signBit (flush a) ^^ signBit (flush c)) = s
    cases z <;> cases s <;> decide

/-- Settles O38: each lane has the zero of `VB` for an addend. -/
theorem multiplyIdiom : Obligations.MultiplyIdiom := by
  intro vd va vc vb s z hb
  refine ⟨s.maddInto vd va vc vb, exec_vmaddfp_eq vd va vc vb s, fun j ha hc => ?_⟩
  rw [v_maddInto_self, lane_maddVec, hb j]
  exact maddLane_zeroLane _ z ha hc

end Sys2Proof.Machine
end

section
/-! The multiplicands exchanged, and the sign turned over (spec/40_lane_numerics.md R98). -/

namespace Sys2Proof.Machine

/-- Each case of R86 and the exact sum treat the multiplicands alike. -/
theorem fma32_comm (nan a c b : Lane) : fma32 nan a c b = fma32 nan c a b := by
  have hnan : (classOf a = .nan ∨ classOf c = .nan ∨ classOf b = .nan) ↔
      (classOf c = .nan ∨ classOf a = .nan ∨ classOf b = .nan) := or_left_comm
  have hzero : (classOf a = .inf ∧ classOf c = .zero ∨ classOf a = .zero ∧ classOf c = .inf) ↔
      (classOf c = .inf ∧ classOf a = .zero ∨ classOf c = .zero ∧ classOf a = .inf) :=
    or_comm.trans (or_congr and_comm and_comm)
  have hsum : exactSum a c b = exactSum c a b := by rw [exactSum, exactSum, mul_comm (valUnits a)]
  simp only [fma32, hnan, hzero, hsum, or_comm (a := classOf a = .inf), or_comm (a := classOf a = .zero),
    Bool.xor_comm (signBit a)]

/-- Settles O24: the output is flushed, the cases are alike in the multiplicands, and a flushed input stays
as it is. -/
theorem maddLaneDenormalAndSymmetryLaws : Obligations.MaddLaneDenormalAndSymmetryLaws := by
  intro k a c b r
  have hcomm : r = maddLane (nanResult k) c a b := congrArg flush (fma32_comm _ _ _ _)
  refine ⟨classOf_flush_ne_denormal _, fun _ => hcomm, fun h => hcomm ▸ h, ?_⟩
  simp only [r, maddLane, flush_flush]

theorem pack_not (s : Bool) (e f : ℕ) : pack (!s) e f = pack s e f ^^^ 0x80000000#32 := by
  have hbit : BitVec.ofBool (!s) = BitVec.ofBool s ^^^ 1#1 := by cases s <;> decide
  have hmask : 0x80000000#32 = 1#1 ++ 0#8 ++ 0#23 := by decide
  rw [pack, pack, hmask, hbit]
  change _ = ((BitVec.ofBool s ++ BitVec.ofNat 8 e ++ BitVec.ofNat 23 f : BitVec (1 + 8 + 23)) ^^^
    (1#1 ++ 0#8 ++ 0#23))
  rw [BitVec.xor_append, BitVec.xor_append, BitVec.xor_zero, BitVec.xor_zero]

/-- Turning the sign over leaves the other fields as they are. -/
theorem xor_sign_eq_pack (w : Lane) :
    w ^^^ 0x80000000#32 = pack (!signBit w) (expField w) (fracField w) := by
  rw [pack_not, pack_fields]

/-- Two patterns that differ in the sign alone. -/
structure SignFlipped (w w' : Lane) : Prop where
  sign : signBit w' = !signBit w
  exp : expField w' = expField w
  frac : fracField w' = fracField w

theorem signFlipped_xor_sign (w : Lane) : SignFlipped w (w ^^^ 0x80000000#32) := by
  rw [xor_sign_eq_pack]
  exact ⟨signBit_pack _ _ _, expField_pack _ _ (expField_lt w), fracField_pack _ _ (fracField_lt w)⟩

theorem classOf_xor_sign (w : Lane) : classOf (w ^^^ 0x80000000#32) = classOf w := by
  rw [classOf, classOf, (signFlipped_xor_sign w).exp, (signFlipped_xor_sign w).frac]

theorem flush_xor_sign (w : Lane) : flush (w ^^^ 0x80000000#32) = flush w ^^^ 0x80000000#32 := by
  simp only [flush, classOf_xor_sign, (signFlipped_xor_sign w).sign, zeroLane, pack_not]
  split <;> rfl

theorem valUnits_xor_sign (w : Lane) : valUnits (w ^^^ 0x80000000#32) = -valUnits w := by
  obtain ⟨hsign, hexp, hfrac⟩ := signFlipped_xor_sign w
  simp only [valUnits, magUnits, hsign, hexp, hfrac]
  cases signBit w <;> simp

theorem FiniteOperands.xor_sign {a c b : Lane} (h : FiniteOperands a c b) :
    FiniteOperands (a ^^^ 0x80000000#32) c (b ^^^ 0x80000000#32) where
  a := by rw [isFinite, classOf_xor_sign]; exact h.a
  c := h.c
  b := by rw [isFinite, classOf_xor_sign]; exact h.b

theorem exactSum_xor_sign (a c b : Lane) :
    exactSum (a ^^^ 0x80000000#32) c (b ^^^ 0x80000000#32) = -exactSum a c b := by
  simp only [exactSum, valUnits_xor_sign]
  ring

/-- The opposite sum is rounded to the opposite pattern (R92). -/
theorem round32_neg {N : ℤ} (h : N ≠ 0) : round32 (-N) = round32 N ^^^ 0x80000000#32 := by
  obtain ⟨e, f, hpack⟩ := exists_round32_eq_pack N.natAbs
  have hsign : decide (-N < 0) = !decide (N < 0) := by
    rw [← decide_not, decide_eq_decide]
    lia
  rw [hpack N rfl, hpack (-N) (Int.natAbs_neg N), hsign, pack_not]

/-- With the signs of a multiplicand and of the addend turned over, operands that were not invalid are not. -/
theorem invalidOperands_of_xor_sign {a c b : Lane}
    (h : InvalidOperands (a ^^^ 0x80000000#32) c (b ^^^ 0x80000000#32)) : InvalidOperands a c b := by
  rcases h with h | h | ⟨hp, hb, hs⟩
  · simp only [classOf_xor_sign] at h
    exact .nan h
  · simp only [classOf_xor_sign] at h
    exact .infTimesZero h
  · simp only [classOf_xor_sign, (signFlipped_xor_sign _).sign] at hp hb hs
    refine .infMinusInf hp hb fun heq => hs ?_
    rw [heq, Bool.not_xor]

/-- The opposite multiplicand and addend give the opposite result, if it is no NaN and no zero. -/
theorem fma32_xor_sign (nan : Lane) {a c b : Lane} (h : ¬ InvalidOperands a c b)
    (hz : classOf (fma32 nan a c b) ≠ .zero) :
    fma32 nan (a ^^^ 0x80000000#32) c (b ^^^ 0x80000000#32) = fma32 nan a c b ^^^ 0x80000000#32 := by
  have h' := fun hinv => h (invalidOperands_of_xor_sign hinv)
  cases validOperands_of_not_invalid h with
  | infProduct hp =>
    rw [fma32_of_inf_product nan h' (by rwa [classOf_xor_sign]), fma32_of_inf_product nan h hp,
      (signFlipped_xor_sign a).sign, Bool.not_xor, infLane, pack_not, infLane]
  | infAddend hp hb =>
    rw [fma32_of_inf_addend nan h' (by rwa [classOf_xor_sign]) (by rwa [classOf_xor_sign]),
      fma32_of_inf_addend nan h hp hb]
  | finite hf =>
    have hsum : exactSum a c b ≠ 0 := by
      intro h0
      obtain ⟨s, hs⟩ := exists_fma32_eq_zeroLane nan hf h0
      rw [hs, classOf_zeroLane] at hz
      exact hz rfl
    have hsum' := (exactSum_xor_sign a c b).trans_ne (neg_ne_zero.mpr hsum)
    rw [fma32_of_sum_ne_zero nan hf.xor_sign hsum', exactSum_xor_sign, round32_neg hsum,
      fma32_of_sum_ne_zero nan hf hsum]

end Sys2Proof.Machine
end

section
/-! The unit and sign laws (spec/40_lane_numerics.md R98). -/

namespace Sys2Proof.Machine

theorem classOf_one : classOf 0x3F800000#32 = .normal := by decide

theorem valUnits_one : valUnits 0x3F800000#32 = 2 ^ 149 := by decide

/-- Adding to `+0 * 1` gives the addend, and `+0` for `-0` (law 4 of R98). -/
theorem maddLane_zero_one (nan b : Lane) (hb : classOf b = .normal ∨ classOf b = .zero) :
    maddLane nan 0x00000000#32 0x3F800000#32 b = if b = 0x80000000#32 then 0x00000000#32 else b := by
  have hzero : classOf 0x00000000#32 = .zero := by decide
  have hfa := isFinite_of_zero hzero
  have hfc := isFinite_of_normal classOf_one
  rw [maddLane, flush_of_zero hzero, flush_of_normal classOf_one]
  rcases hb with hn | hz
  · rw [flush_of_normal hn, fma32_of_zero_product nan ⟨hfa, hfc, isFinite_of_normal hn⟩ (.inl hzero) hn,
       flush_of_normal hn, if_neg]
    rintro rfl
    exact absurd hn (by decide)
  · obtain ⟨s, rfl⟩ : ∃ s, b = zeroLane s := ⟨_, eq_zeroLane hz⟩
    rw [flush_zeroLane, fma32_of_zeros nan ⟨hfa, hfc, isFinite_of_zero hz⟩ (.inl hzero) hz]
    cases s <;> decide

/-- A pattern that is flushed to a zero is flushed to the zero of its sign. -/
theorem flush_eq_zeroLane {w : Lane} (h : classOf w = .zero ∨ classOf w = .denormal) :
    flush w = zeroLane (signBit w) := by
  rw [eq_zeroLane (classOf_flush_eq_zero h), signBit_flush]

/-- Multiplying by 1 and adding `-0` flushes and does nothing else (law 5 of R98). -/
theorem maddLane_one_negZero (nan : Lane) {a : Lane} (ha : classOf a ≠ .nan) :
    maddLane nan a 0x3F800000#32 0x80000000#32 = flush a := by
  have hfc := isFinite_of_normal classOf_one
  have hb : classOf 0x80000000#32 = .zero := by decide
  have hfb := isFinite_of_zero hb
  have hflushed (h : classOf a = .zero ∨ classOf a = .denormal) :
      maddLane nan a 0x3F800000#32 0x80000000#32 = flush a := by
    have hz := classOf_zeroLane (signBit a)
    rw [maddLane, flush_eq_zeroLane h, flush_of_normal classOf_one,
      flush_of_zero hb, fma32_of_zeros nan ⟨isFinite_of_zero hz, hfc, hfb⟩ (.inl hz) hb,
      signBit_zeroLane]
    cases signBit a <;> decide
  cases hc : classOf a with
  | zero => exact hflushed (.inl hc)
  | denormal => exact hflushed (.inr hc)
  | normal =>
    have hval : valUnits a ≠ 0 := by
      rw [ne_eq, valUnits_eq_zero_iff, hc]
      decide
    have hsum : exactSum a 0x3F800000#32 0x80000000#32 = valUnits a * 2 ^ 149 := by
      rw [exactSum, valUnits_one, (valUnits_eq_zero_iff _).mpr hb, zero_mul, add_zero]
    rw [maddLane, flush_of_normal hc, flush_of_normal classOf_one,
      flush_of_zero hb, fma32_of_sum_ne_zero nan ⟨isFinite_of_normal hc, hfc, hfb⟩
      (by rw [hsum]; positivity), hsum, round32_valUnits hc, flush_of_normal hc]
  | inf =>
    have hzero : classOf (flush a) ≠ .zero := by
      rw [classOf_flush_of_inf hc]
      decide
    obtain ⟨product, -⟩ := infinityArithmetic nan a 0x3F800000#32 0x80000000#32
    rw [product (.inl hc) hzero (by decide) ha (by decide) (.inl hfb),
      flush_of_ne_denormal (by rw [hc]; decide), show signBit 0x3F800000#32 = false by decide,
      Bool.xor_false]
    exact (eq_infLane hc).symm
  | nan => exact absurd hc ha

/-- Settles O25: an overflowed sum is beyond the threshold, on the side that its infinity shows. -/
theorem maddLaneUnitAndSignLaws : Obligations.MaddLaneUnitAndSignLaws := by
  refine fun k a c b => ⟨maddLane_zero_one _ b, maddLane_one_negZero _, fun hn hz => ?opposite,
    fun ha hc hb hinf => ?sign⟩
  case opposite =>
    have hvalid := fun h => hn (classOf_maddLane_of_invalid k h)
    have hzero : classOf (fma32 (nanResult k) (flush a) (flush c) (flush b)) ≠ .zero := fun h =>
      hz (classOf_flush_eq_zero (.inl h))
    rw [maddLane, flush_xor_sign, flush_xor_sign, fma32_xor_sign _ hvalid hzero, flush_xor_sign, maddLane]
  case sign =>
    obtain ⟨hpos, hneg, hbelow⟩ := overflowGivesInfinity (nanResult k) a c b ha hc hb
    have hover : 2 ^ 128 - 2 ^ 103 ≤ |sumQ (flush a) (flush c) (flush b)| := by
      by_contra hlt
      obtain ⟨hfin, -⟩ := (isFinite_iff _).mp (hbelow (not_le.mp hlt))
      exact hfin hinf
    rcases le_abs.mp hover with h | h
    · have hnonneg : ¬ sumQ (flush a) (flush c) (flush b) < 0 := not_lt.mpr (le_trans (by norm_num) h)
      rw [hpos h]
      exact iff_of_false (by decide) hnonneg
    · have hsum := le_neg_of_le_neg h
      rw [hneg hsum]
      exact iff_of_true (by decide) (lt_of_le_of_lt hsum (by norm_num))

end Sys2Proof.Machine
end
